-- ==== Sys2Proof/Config.lean ====
section
/-! DEFINITION. The parameters of the machine (00_scope.md rules R2, R3, R4). There is no free value: every value
the source leaves open is settled by a numbered rule of the spec (93_implementation_defined.md), and NOTES.md lists
each of them. -/

namespace Sys2Proof.Config

/-- `W`, the bits of a cell, of the accumulator and of the program counter (rule R3).
DESIGN CHOICE (log 1): the spec's default 32 is taken; any `W >= 9` is admitted by the rule. -/
abbrev W : Nat := 32

/-- `MEM_SIZE`, the number of cells: fixed, not configurable (rule R2). -/
abbrev memSize : Nat := 8

/-- `CJ_VALUES`, the opcode values of the ten conditional-jump stubs (rules R4, R55). The value taken is
`Sys2Proof.cjValues` in Decode.lean. -/
structure CjValues where
  jn : Int
  jp : Int
  jv : Int
  jnv : Int
  jz : Int
  jnz : Int
  jc : Int
  jnc : Int
  jb : Int
  jnb : Int
  deriving DecidableEq, Repr

end Sys2Proof.Config
end

