-- ==== Sys2Proof/Word.lean ====
section
/-! DEFINITION. The word type: one signed two's-complement `W`-bit integer, the content of a cell, of the accumulator
and of the program counter (00_scope.md rule R3), and the address of a cell (20_memory.md rule R30). A word stands for
the mathematical integer `Word.toInt` (rule R7); no rule of the machine slices it. -/

namespace Sys2Proof

/-- A cell value, read as the signed integer `toInt` (rules R3, R7). -/
abbrev Word := BitVec Config.W

/-- The address of a cell, 0 to 7: `MemRead` and `MemWrite` are defined for these and no others (rules R30, R33, R34). -/
abbrev Addr := Fin Config.memSize

/-- `INT_MIN` of rule R3. -/
def intMin : Int := -2 ^ (Config.W - 1)

/-- `INT_MAX` of rule R3. -/
def intMax : Int := 2 ^ (Config.W - 1) - 1

/-- The eight addresses in address order. -/
def allAddrs : List Addr := [0, 1, 2, 3, 4, 5, 6, 7]

end Sys2Proof
end

