-- ==== Sys2Proof/Syntax.lean ====
section
/-! DEFINITION. The instructions: one constructor per row of spec/opcode_table.json, its 24 rows and the default row
UNKNOWN (30_encoding.md rules R50 to R54). -/

namespace Sys2Proof

/-- A decoded instruction. A format A instruction carries its operand cell whole (rules R52, R58); UNKNOWN carries the
raw opcode cell, as the source's `UnknownOp(rawValue)` does (rule R53). -/
inductive Instr where
  | nop
  | sta (a : Word)
  | lda (a : Word)
  | add (a : Word)
  | or (a : Word)
  | and (a : Word)
  | not
  | sub (a : Word)
  | jmp (a : Word)
  | jn (a : Word)
  | jp (a : Word)
  | jv (a : Word)
  | jnv (a : Word)
  | jz (a : Word)
  | jnz (a : Word)
  | jc (a : Word)
  | jnc (a : Word)
  | jb (a : Word)
  | jnb (a : Word)
  | shr
  | shl
  | ror
  | rol
  | hlt
  | unknown (v : Word)
  deriving DecidableEq, Repr

end Sys2Proof
end

