-- ==== Sys2Proof/Decode.lean ====
section
/-! DEFINITION. The decoder `OpTable` and the operand assembly, total on any cells, and the encoder written from the
same encoding tables (30_encoding.md rules R50 to R59). -/

namespace Sys2Proof

/-- The mnemonics of rule R54, and UNKNOWN for every cell value outside the table (rule R92). A fault record names its
instruction by one of these (60_exceptions.md rule R161). -/
inductive Mnemonic where
  | nop
  | sta
  | lda
  | add
  | or
  | and
  | not
  | sub
  | jmp
  | jn
  | jp
  | jv
  | jnv
  | jz
  | jnz
  | jc
  | jnc
  | jb
  | jnb
  | shr
  | shl
  | ror
  | rol
  | hlt
  | unknown
  deriving DecidableEq, Repr

/-- One row of the opcode table: mnemonic, exact cell value, "consumes next cell" (rule R54). -/
structure OpRow where
  mnemonic : Mnemonic
  value : Int
  consumes : Bool
  deriving DecidableEq, Repr

/-- `CJ_VALUES` in list order JN to JNB (rule R55, decision D3). DESIGN CHOICE (log 2): the spec's default is taken. -/
def cjValues : Config.CjValues where
  jn := 0x90
  jp := 0x94
  jv := 0x98
  jnv := 0x9C
  jz := 0xA0
  jnz := 0xA4
  jc := 0xB0
  jnc := 0xB4
  jb := 0xB8
  jnb := 0xBC

/-- The opcode table: 24 rows (rules R54, R56). The four shift and rotate names stand on 0xE0 to 0xE3 in list order
(DEDUCED, log 3). -/
def opTable : List OpRow :=
  [ ⟨.nop, 0x00, false⟩
  , ⟨.sta, 0x10, true⟩
  , ⟨.lda, 0x20, true⟩
  , ⟨.add, 0x30, true⟩
  , ⟨.or, 0x40, true⟩
  , ⟨.and, 0x50, true⟩
  , ⟨.not, 0x60, false⟩
  , ⟨.sub, 0x70, true⟩
  , ⟨.jmp, 0x80, true⟩
  , ⟨.jn, cjValues.jn, true⟩
  , ⟨.jp, cjValues.jp, true⟩
  , ⟨.jv, cjValues.jv, true⟩
  , ⟨.jnv, cjValues.jnv, true⟩
  , ⟨.jz, cjValues.jz, true⟩
  , ⟨.jnz, cjValues.jnz, true⟩
  , ⟨.jc, cjValues.jc, true⟩
  , ⟨.jnc, cjValues.jnc, true⟩
  , ⟨.jb, cjValues.jb, true⟩
  , ⟨.jnb, cjValues.jnb, true⟩
  , ⟨.shr, 0xE0, false⟩
  , ⟨.shl, 0xE1, false⟩
  , ⟨.ror, 0xE2, false⟩
  , ⟨.rol, 0xE3, false⟩
  , ⟨.hlt, 0xF0, false⟩ ]

/-- The row a cell value selects: only by exact equality of the whole cell, as a signed integer (rule R53, decision
D10; log 4). -/
def tableRow (v : Word) : Option OpRow := opTable.find? (fun r => r.value == v.toInt)

/-- `OpTable(v)`, total: the mnemonic and whether the opcode consumes a trailing cell; a value that selects no row is
`(UNKNOWN, no)` (rules R53, R57). -/
def lookupOp (v : Word) : Mnemonic × Bool :=
  match tableRow v with
  | some r => (r.mnemonic, r.consumes)
  | none => (.unknown, false)

/-- The instruction of a mnemonic, from its opcode cell and its operand cell. The operand is the whole cell (rule
R58); a one-cell instruction has none, and UNKNOWN keeps its opcode cell. -/
def assemble (mn : Mnemonic) (op operand : Word) : Instr :=
  match mn with
  | .nop => .nop
  | .sta => .sta operand
  | .lda => .lda operand
  | .add => .add operand
  | .or => .or operand
  | .and => .and operand
  | .not => .not
  | .sub => .sub operand
  | .jmp => .jmp operand
  | .jn => .jn operand
  | .jp => .jp operand
  | .jv => .jv operand
  | .jnv => .jnv operand
  | .jz => .jz operand
  | .jnz => .jnz operand
  | .jc => .jc operand
  | .jnc => .jnc operand
  | .jb => .jb operand
  | .jnb => .jnb operand
  | .shr => .shr
  | .shl => .shl
  | .ror => .ror
  | .rol => .rol
  | .hlt => .hlt
  | .unknown => .unknown op

/-- Why a list of cells holds no whole instruction. The opcode itself never fails to decode (rules R53, R57): the only
failure is a missing cell. -/
inductive DecodeError where
  /-- No cell at all: the program counter is past the last cell (40_step_cycle.md rule R73). -/
  | noOpcodeCell
  /-- The opcode consumes an operand and no cell follows it (40_step_cycle.md rule R77). -/
  | noOperandCell (mn : Mnemonic)
  deriving DecidableEq, Repr

/-- Decode the instruction at the head of a list of cells, and the cells after it (rules R50, R52, R59). -/
def decode : List Word → Except DecodeError (Instr × List Word)
  | [] => .error .noOpcodeCell
  | op :: rest =>
    match lookupOp op, rest with
    | (mn, false), _ => .ok (assemble mn op 0, rest)
    | (mn, true), [] => .error (.noOperandCell mn)
    | (mn, true), a :: rest' => .ok (assemble mn op a, rest')

/-- The cells of an instruction: its opcode value and, in format A, its operand (rules R51, R52, R54). -/
def encode (i : Instr) : List Word :=
  match i with
  | .nop => [0x00]
  | .sta a => [0x10, a]
  | .lda a => [0x20, a]
  | .add a => [0x30, a]
  | .or a => [0x40, a]
  | .and a => [0x50, a]
  | .not => [0x60]
  | .sub a => [0x70, a]
  | .jmp a => [0x80, a]
  | .jn a => [BitVec.ofInt Config.W cjValues.jn, a]
  | .jp a => [BitVec.ofInt Config.W cjValues.jp, a]
  | .jv a => [BitVec.ofInt Config.W cjValues.jv, a]
  | .jnv a => [BitVec.ofInt Config.W cjValues.jnv, a]
  | .jz a => [BitVec.ofInt Config.W cjValues.jz, a]
  | .jnz a => [BitVec.ofInt Config.W cjValues.jnz, a]
  | .jc a => [BitVec.ofInt Config.W cjValues.jc, a]
  | .jnc a => [BitVec.ofInt Config.W cjValues.jnc, a]
  | .jb a => [BitVec.ofInt Config.W cjValues.jb, a]
  | .jnb a => [BitVec.ofInt Config.W cjValues.jnb, a]
  | .shr => [0xE0]
  | .shl => [0xE1]
  | .ror => [0xE2]
  | .rol => [0xE3]
  | .hlt => [0xF0]
  | .unknown v => [v]

/-- The mnemonic of an instruction. -/
def Instr.mnemonic (i : Instr) : Mnemonic :=
  match i with
  | .nop => .nop
  | .sta _ => .sta
  | .lda _ => .lda
  | .add _ => .add
  | .or _ => .or
  | .and _ => .and
  | .not => .not
  | .sub _ => .sub
  | .jmp _ => .jmp
  | .jn _ => .jn
  | .jp _ => .jp
  | .jv _ => .jv
  | .jnv _ => .jnv
  | .jz _ => .jz
  | .jnz _ => .jnz
  | .jc _ => .jc
  | .jnc _ => .jnc
  | .jb _ => .jb
  | .jnb _ => .jnb
  | .shr => .shr
  | .shl => .shl
  | .ror => .ror
  | .rol => .rol
  | .hlt => .hlt
  | .unknown _ => .unknown

/-- The length of an instruction in cells, from the "consumes next cell" column (rules R50, R59). -/
def Instr.length (i : Instr) : Nat :=
  match i with
  | .nop => 1
  | .sta _ => 2
  | .lda _ => 2
  | .add _ => 2
  | .or _ => 2
  | .and _ => 2
  | .not => 1
  | .sub _ => 2
  | .jmp _ => 2
  | .jn _ => 2
  | .jp _ => 2
  | .jv _ => 2
  | .jnv _ => 2
  | .jz _ => 2
  | .jnz _ => 2
  | .jc _ => 2
  | .jnc _ => 2
  | .jb _ => 2
  | .jnb _ => 2
  | .shr => 1
  | .shl => 1
  | .ror => 1
  | .rol => 1
  | .hlt => 1
  | .unknown _ => 1

/-- The two cells of a word of spec/opcode_table.json, numbered as the table numbers bits: bit 0 is the least
significant bit of the first cell, and the second cell's bits count on from bit `W` (log 5). -/
def tableCells (nbits w : Nat) : List Word :=
  [BitVec.ofNat Config.W (w % 2 ^ nbits), BitVec.ofNat Config.W (w % 2 ^ nbits / 2 ^ Config.W)]

/-- The instruction the decoder reads from a word of the opcode table. -/
def decodeTableWord (nbits w : Nat) : Option Instr :=
  match decode (tableCells nbits w) with
  | .ok (i, _) => some i
  | .error _ => none

end Sys2Proof
end

