-- ==== Sys2Proof/Machine/State.lean ====
section
/-! DEFINITION. The machine's state: the five elements the source names and the fault latch (10_state.md rules R10 to
R20), the reasons a step can stop, and the state after reset. -/

namespace Sys2Proof.Machine

/-- The memory array (rules R2, R11, R12, R30): the cells that differ from their reset content, with their addresses.
The unit is the cell; the machine has no bytes (20_memory.md rule R31; log 6). -/
abbrev Memory := List (Addr × Word)

/-- What a cell no entry lists reads as: the reset content of every cell, 0 (rule R22). -/
def Memory.unlisted : Word := 0

/-- The one canonical form: addresses strictly rising, and no entry equal to what an unlisted cell reads as. -/
def Memory.wf (m : Memory) : Bool :=
  match m with
  | [] => true
  | (a, v) :: rest => v != Memory.unlisted && rest.all (fun p => decide (a < p.1)) && Memory.wf rest

/-- The causes of a fatal outcome (60_exceptions.md rules R161, R164). -/
inductive FaultCause where
  /-- S2: `pc >= 8` at the start of a step (40_step_cycle.md rule R73). -/
  | pcOutOfBounds
  /-- S6: the advanced `pc >= 8` at operand fetch (rule R77). -/
  | pcOverflowDuringFetch
  /-- S7: an operand of STA, LDA or JMP outside `[0, 7]` (rule R78). -/
  | targetOutOfRange
  /-- S8: an operand of ADD or SUB outside `[0, 7]`; no `FatalBoundsError` (43_arithmetic.md rule R113). -/
  | undefinedOperandRead
  deriving DecidableEq, Repr

/-- The numeric codes of rules R161 and R164 (the spec's own, decision D8). -/
def FaultCause.code (c : FaultCause) : Nat :=
  match c with
  | .pcOutOfBounds => 1
  | .pcOverflowDuringFetch => 2
  | .targetOutOfRange => 3
  | .undefinedOperandRead => 4

/-- Whether a cause is one of the three of `FatalBoundsError` (rule R161); UNDEFINED_OPERAND_READ is not (rule R164). -/
def FaultCause.isFatalBoundsError (c : FaultCause) : Bool :=
  match c with
  | .pcOutOfBounds => true
  | .pcOverflowDuringFetch => true
  | .targetOutOfRange => true
  | .undefinedOperandRead => false

/-- The fault record `(cause, mnemonic, addr)` (rule R161). -/
structure FaultRecord where
  cause : FaultCause
  mnemonic : Option Mnemonic
  addr : Word
  deriving DecidableEq, Repr

/-- Why a step ends with no next state. -/
inductive Fault where
  /-- Raised by stage S0 of a step of a FAULTED machine and by nothing else: the state is not changed and the latched
  record is returned again (40_step_cycle.md rule R71). Safe: it is what the spec says, and it gives a FAULTED machine
  no next state. The step that FIRST raises a fatal outcome is no `Fault`: it has a next state, which holds the
  latched record (log 7). -/
  | latched (r : FaultRecord)
  deriving DecidableEq, Repr

/-- Why a step gives an instruction no meaning. -/
inductive Refusal where
  /-- An instruction whose meaning is not written yet. No arm of `exec` answers it: every instruction has a meaning.
  It would be safe: no claim could be proved of a run that met it. -/
  | notModelled (mnemonic : String)
  deriving DecidableEq, Repr

/-- The architectural state (rule R10). It holds no other element: no flags (R18), no control registers (R20), no
interrupt or mode state (60_exceptions.md rules R166, R171). -/
structure State where
  /-- `M[0..7]` (rules R11, R12). -/
  mem : Memory
  /-- `acc`, the only general register (rule R13). -/
  acc : Word
  /-- `pc`, a signed index into memory; 0 to 8 in every reachable state (rules R14, R16; log 8). -/
  pc : Word
  /-- `steps`, a natural number that never wraps (rule R17; log 9). -/
  steps : Nat
  /-- `halted` (rule R18). -/
  halted : Bool
  /-- `fault`, the fault latch (rule R19). -/
  fault : Option FaultRecord
  deriving DecidableEq, Repr

/-- The state right after reset (rules R22 to R26, 70_reset_and_hazards.md rule R180). `acc` is 0 pending load (rule
R23, decision D12; log 10). -/
def State.reset : State where
  mem := []
  acc := 0
  pc := 0
  steps := 0
  halted := false
  fault := none

/-- What a step and a meaning answer. -/
abbrev Answer := Host.Outcome State Fault Refusal

end Sys2Proof.Machine
end

