-- ==== Sys2Proof/Machine/Ops.lean ====
section
/-! DEFINITION. The named operations over memory and the registers, the bounds checker, and the taking of a fatal
outcome (20_memory.md rules R33 to R35, 43_arithmetic.md rule R112, 60_exceptions.md rules R161 to R170). -/

namespace Sys2Proof.Machine

/-- `MemRead(a, 1)`: the whole cell, no conversion, no side effect (rule R33). -/
def Memory.read (m : Memory) (a : Addr) : Word :=
  match m with
  | [] => Memory.unlisted
  | (b, v) :: rest => if b = a then v else Memory.read rest a

/-- Put an entry at its place in a memory that does not list its address. -/
def Memory.insert (m : Memory) (a : Addr) (v : Word) : Memory :=
  match m with
  | [] => [(a, v)]
  | (b, w) :: rest => if a < b then (a, v) :: (b, w) :: rest else (b, w) :: Memory.insert rest a v

/-- The memory with its entry at `a` taken out. -/
def Memory.erase (m : Memory) (a : Addr) : Memory := m.filter (fun p => p.1 != a)

/-- `MemWrite(a, 1, v)`: `M[a] <- v` and no other cell (rule R34), in canonical form. -/
def Memory.write (m : Memory) (a : Addr) (v : Word) : Memory :=
  if v = Memory.unlisted then m.erase a else (m.erase a).insert a v

/-- All eight cells in address order. -/
def Memory.cells (m : Memory) : List Word := allAddrs.map m.read

/-- `wrap_W(v)`: the signed `W`-bit integer congruent to `v` modulo `2^W` (00_scope.md rule R7, rule R112, decision D2;
log 11). -/
def wrapW (v : Int) : Word := BitVec.ofInt Config.W v

/-- The bounds checker: the cell address a word names, when `0 <= v < MEM_SIZE` as a signed integer (rules R35, R7). -/
def boundsCheck (v : Word) : Option Addr :=
  if h : 0 ≤ v.toInt ∧ v.toInt < Config.memSize then
    some ⟨v.toInt.toNat, by
      have := h.1; have := h.2
      omega⟩
  else none

/-- `MemWrite` on the state: one cell and nothing else (rule R34). -/
def State.writeMem (s : State) (a : Addr) (v : Word) : State := { s with mem := s.mem.write a v }

/-- `acc <- v` (rule R13). -/
def State.setAcc (s : State) (v : Word) : State := { s with acc := v }

/-- `pc <- target` (44_jump.md rule R120). -/
def State.setPc (s : State) (target : Word) : State := { s with pc := target }

/-- `pc <- pc + 1`, with no bounds check: the final advance S9 and the advance to the operand cell in S6
(40_step_cycle.md rules R77, R80). -/
def State.advancePc (s : State) : State := { s with pc := s.pc + 1 }

/-- `steps <- steps + 1`, stage S3 (40_step_cycle.md rule R74). -/
def State.countStep (s : State) : State := { s with steps := s.steps + 1 }

/-- Take a fatal outcome, `raise` of rule R7: latch the record, so that the machine is FAULTED. No control is
transferred, nothing is saved and no other state element changes (rules R161, R168, R169). There is no return from it
to put beside it: no instruction returns, and only reset leaves FAULTED (rule R170). -/
def State.raise (s : State) (cause : FaultCause) (mn : Option Mnemonic) (addr : Word) : State :=
  { s with fault := some ⟨cause, mn, addr⟩ }

/-- Store the given cells from the address the program counter names on, as far as there are cells; nothing where it
names none. Used to place an instruction under the next fetch. -/
def State.placeCells (s : State) (cells : List Word) : State :=
  match cells with
  | [] => s
  | [op] =>
    match boundsCheck s.pc with
    | none => s
    | some p => s.writeMem p op
  | op :: a :: _ =>
    match boundsCheck s.pc, boundsCheck (s.pc + 1) with
    | some p, some q => (s.writeMem p op).writeMem q a
    | some p, none => s.writeMem p op
    | none, _ => s

end Sys2Proof.Machine
end

