-- ==== Sys2Proof/Machine/Operands.lean ====
section
/-! DEFINITION. Every operand form: the operand fetch S6, the checked address of STA, LDA and JMP (S7), and the
unchecked address of ADD and SUB (30_encoding.md rule R58, 20_memory.md rule R35). Each answers what it found, or, as
an error, the FAULTED state of the step that ends there. -/

namespace Sys2Proof.Machine

/-- S6, for an operand-consuming opcode: advance `pc` to the operand cell, check it, read it whole. A failed check
raises PC_OVERFLOW_DURING_FETCH with the advanced `pc` (40_step_cycle.md rule R77). -/
def fetchOperand (mn : Mnemonic) (s : State) : Except State (Word × State) :=
  match boundsCheck s.advancePc.pc with
  | none => .error (s.advancePc.raise .pcOverflowDuringFetch (some mn) s.advancePc.pc)
  | some p => .ok (s.mem.read p, s.advancePc)

/-- S7, for STA, LDA and JMP only: the operand as a checked address. A failed check raises TARGET_OUT_OF_RANGE with the
operand value, before anything is used (40_step_cycle.md rule R78). -/
def checkTarget (mn : Mnemonic) (a : Word) (s : State) : Except State Addr :=
  match boundsCheck a with
  | none => .error (s.raise .targetOutOfRange (some mn) a)
  | some t => .ok t

/-- The read of ADD and SUB, whose operand no stage checks: the cell where there is one, and otherwise the outcome
`UndefinedOperandRead`, which gives the read no value and is no `FatalBoundsError` (43_arithmetic.md rule R113,
60_exceptions.md rule R164, decision D4; log 12). -/
def readUnchecked (mn : Mnemonic) (a : Word) (s : State) : Except State Word :=
  match boundsCheck a with
  | none => .error (s.raise .undefinedOperandRead (some mn) a)
  | some t => .ok (s.mem.read t)

end Sys2Proof.Machine
end

