-- ==== Sys2Proof/Machine/Arithmetic.lean ====
section
/-! DEFINITION. The meanings of ADD and SUB (43_arithmetic.md). A meaning is stages S7 to S9 of the
instruction (40_step_cycle.md rules R78 to R80): it starts with `steps` counted and `pc` at the instruction's last cell
(log 13). -/

namespace Sys2Proof.Machine

/-- ADD: `acc <- wrap_W(acc + M[a])` of the exact sum; no flag (rules R110, R112). The operand is not checked: outside
memory the step ends in `UndefinedOperandRead` (rule R113). -/
def execAdd (a : Word) (s : State) : Answer :=
  match readUnchecked .add a s with
  | .error s' => .next s'
  | .ok v => .next (s.setAcc (wrapW (s.acc.toInt + v.toInt))).advancePc

/-- SUB: `acc <- wrap_W(acc - M[a])` of the exact difference, the accumulator being the minuend; no flag (rules R111,
R112). The operand is not checked: outside memory the step ends in `UndefinedOperandRead` (rule R113). -/
def execSub (a : Word) (s : State) : Answer :=
  match readUnchecked .sub a s with
  | .error s' => .next s'
  | .ok v => .next (s.setAcc (wrapW (s.acc.toInt - v.toInt))).advancePc

end Sys2Proof.Machine
end

