-- ==== Sys2Proof/Machine/CondJumpStubs.lean ====
section
/-! DEFINITION. The meanings of the ten conditional-jump stubs (46_stub_cond_jumps.md
rules R140 to R150): none of them ever transfers control. A meaning is stages S7 to S9 of the
instruction (40_step_cycle.md rules R78 to R80): it starts with `steps` counted and `pc` at the instruction's last cell
(log 13). -/

namespace Sys2Proof.Machine

/-- JN, conditional-jump stub: the operand is ignored, no condition is evaluated, no branch is
taken; nothing but the final advance (rule R140). -/
def execJn (_a : Word) (s : State) : Answer := .next s.advancePc

/-- JP, conditional-jump stub: the operand is ignored, no condition is evaluated, no branch is
taken; nothing but the final advance (rule R141). -/
def execJp (_a : Word) (s : State) : Answer := .next s.advancePc

/-- JV, conditional-jump stub: the operand is ignored, no condition is evaluated, no branch is
taken; nothing but the final advance (rule R142). -/
def execJv (_a : Word) (s : State) : Answer := .next s.advancePc

/-- JNV, conditional-jump stub: the operand is ignored, no condition is evaluated, no branch is
taken; nothing but the final advance (rule R143). -/
def execJnv (_a : Word) (s : State) : Answer := .next s.advancePc

/-- JZ, conditional-jump stub: the operand is ignored, no condition is evaluated, no branch is
taken; nothing but the final advance (rule R144). -/
def execJz (_a : Word) (s : State) : Answer := .next s.advancePc

/-- JNZ, conditional-jump stub: the operand is ignored, no condition is evaluated, no branch is
taken; nothing but the final advance (rule R145). -/
def execJnz (_a : Word) (s : State) : Answer := .next s.advancePc

/-- JC, conditional-jump stub: the operand is ignored, no condition is evaluated, no branch is
taken; nothing but the final advance (rule R146). -/
def execJc (_a : Word) (s : State) : Answer := .next s.advancePc

/-- JNC, conditional-jump stub: the operand is ignored, no condition is evaluated, no branch is
taken; nothing but the final advance (rule R147). -/
def execJnc (_a : Word) (s : State) : Answer := .next s.advancePc

/-- JB, conditional-jump stub: the operand is ignored, no condition is evaluated, no branch is
taken; nothing but the final advance (rule R148). -/
def execJb (_a : Word) (s : State) : Answer := .next s.advancePc

/-- JNB, conditional-jump stub: the operand is ignored, no condition is evaluated, no branch is
taken; nothing but the final advance (rule R149). -/
def execJnb (_a : Word) (s : State) : Answer := .next s.advancePc

end Sys2Proof.Machine
end

