-- ==== Sys2Proof/Machine/Jump.lean ====
section
/-! DEFINITION. The meaning of JMP (44_jump.md). A meaning is stages S7 to S9 of the
instruction (40_step_cycle.md rules R78 to R80): it starts with `steps` counted and `pc` at the instruction's last cell
(log 13). -/

namespace Sys2Proof.Machine

/-- JMP: `pc <- a` with no final advance; an operand outside memory raises TARGET_OUT_OF_RANGE before `pc` is set (rule
R120). -/
def execJmp (a : Word) (s : State) : Answer :=
  match checkTarget .jmp a s with
  | .error s' => .next s'
  | .ok _ => .next (s.setPc a)

end Sys2Proof.Machine
end

