-- ==== Sys2Proof/Machine/LogicShiftStubs.lean ====
section
/-! DEFINITION. The meanings of the stubs OR, AND, NOT, SHR, SHL, ROR and ROL
(45_stub_logic_shift.md rules R130 to R137): they read and write no `acc`, write no cell, and no flag exists. A meaning is stages S7 to S9 of the
instruction (40_step_cycle.md rules R78 to R80): it starts with `steps` counted and `pc` at the instruction's last cell
(log 13). -/

namespace Sys2Proof.Machine

/-- OR, stub: the operand is ignored; nothing but the final advance (rule R130). -/
def execOr (_a : Word) (s : State) : Answer := .next s.advancePc

/-- AND, stub: the operand is ignored; nothing but the final advance (rule R131). -/
def execAnd (_a : Word) (s : State) : Answer := .next s.advancePc

/-- NOT, stub: nothing but the final advance (rule R132). -/
def execNot (s : State) : Answer := .next s.advancePc

/-- SHR, stub: nothing but the final advance (rule R133). -/
def execShr (s : State) : Answer := .next s.advancePc

/-- SHL, stub: nothing but the final advance (rule R134). -/
def execShl (s : State) : Answer := .next s.advancePc

/-- ROR, stub: nothing but the final advance (rule R135). -/
def execRor (s : State) : Answer := .next s.advancePc

/-- ROL, stub: nothing but the final advance (rule R136). -/
def execRol (s : State) : Answer := .next s.advancePc

end Sys2Proof.Machine
end

