-- ==== Sys2Proof/Machine/MemoryTransfer.lean ====
section
/-! DEFINITION. The meanings of STA and LDA (42_memory_transfer.md). A meaning is stages S7 to S9 of the
instruction (40_step_cycle.md rules R78 to R80): it starts with `steps` counted and `pc` at the instruction's last cell
(log 13). -/

namespace Sys2Proof.Machine

/-- STA: `M[a] <- acc`, `acc` unchanged; an operand outside memory raises TARGET_OUT_OF_RANGE and stores nothing (rule
R100). -/
def execSta (a : Word) (s : State) : Answer :=
  match checkTarget .sta a s with
  | .error s' => .next s'
  | .ok t => .next (s.writeMem t s.acc).advancePc

/-- LDA: `acc <- M[a]`; an operand outside memory raises TARGET_OUT_OF_RANGE and loads nothing (rule R101). -/
def execLda (a : Word) (s : State) : Answer :=
  match checkTarget .lda a s with
  | .error s' => .next s'
  | .ok t => .next (s.setAcc (s.mem.read t)).advancePc

end Sys2Proof.Machine
end

