-- ==== Sys2Proof/Machine/Flags.lean ====
section
/-! DEFINITION. The machine's one status flag, `halted`. There are no condition codes: no instruction computes N, Z, C,
V or B, and none is modelled (10_state.md rule R18, 45_stub_logic_shift.md rule R137, 46_stub_cond_jumps.md rule R150). -/

namespace Sys2Proof.Machine

/-- `halted <- true`, by HLT and nothing else (rules R18, R91). It is never cleared but by reset. -/
def State.setHalted (s : State) : State := { s with halted := true }

end Sys2Proof.Machine
end

