-- ==== Sys2Proof/Machine/NopHlt.lean ====
section
/-! DEFINITION. The meanings of NOP, HLT and UNKNOWN (41_nop_hlt.md). A meaning is stages S7 to S9 of the
instruction (40_step_cycle.md rules R78 to R80): it starts with `steps` counted and `pc` at the instruction's last cell
(log 13). -/

namespace Sys2Proof.Machine

/-- NOP: nothing but the final advance (rule R90). -/
def execNop (s : State) : Answer := .next s.advancePc

/-- HLT: `halted <- true`, then the final advance still runs (rule R91). -/
def execHlt (s : State) : Answer := .next s.setHalted.advancePc

/-- UNKNOWN: as NOP, whatever the raw value; never an error (rule R92). -/
def execUnknown (_v : Word) (s : State) : Answer := .next s.advancePc

end Sys2Proof.Machine
end

