-- ==== Sys2Proof/Machine/Stages.lean ====
section
/-! DEFINITION. The stages of a step that come before execution: S0 to S6 of 40_step_cycle.md rules R70 to R77. The
stages S7 to S9 are the instructions' own, in the family files. -/

namespace Sys2Proof.Machine

/-- How the stages S0 to S6 end. -/
inductive Prepared where
  /-- S0: the machine is FAULTED; its record is returned again (rule R71). -/
  | faulted (r : FaultRecord)
  /-- S1: the machine is halted; the step warns and changes nothing (rule R72). -/
  | warned
  /-- S2 or S6 raised a fatal outcome: the FAULTED state (rules R73, R77). -/
  | raised (s : State)
  /-- An instruction is fetched: `steps` has counted and `pc` is at the instruction's last cell (rules R74 to R77). -/
  | run (i : Instr) (s : State)
  deriving DecidableEq, Repr

/-- S4 to S6, with `pc` checked to name the cell `p`: fetch the opcode, decode it, fetch the operand it consumes
(rules R75, R76, R77). -/
def fetchDecode (p : Addr) (s : State) : Prepared :=
  match lookupOp (s.mem.read p) with
  | (mn, false) => .run (assemble mn (s.mem.read p) 0) s
  | (mn, true) =>
    match fetchOperand mn s with
    | .error s' => .raised s'
    | .ok (a, s') => .run (assemble mn (s.mem.read p) a) s'

/-- S0 to S6 in their order: the faulted check, the halted check, the program-counter check, the count, the fetch
(rules R70 to R77). -/
def prepare (s : State) : Prepared :=
  match s.fault with
  | some r => .faulted r
  | none =>
    if s.halted then .warned
    else
      match boundsCheck s.pc with
      | none => .raised (s.raise .pcOutOfBounds none s.pc)
      | some p => fetchDecode p s.countStep

end Sys2Proof.Machine
end

