-- ==== Sys2Proof/Machine/Step.lean ====
section
/-! DEFINITION. The one operation of the engine, `Step` (40_step_cycle.md rules R70 to R80), and the placing of an
instruction under the next fetch. -/

namespace Sys2Proof.Machine

/-- One step. A FAULTED machine answers its latched record again and has no next state (rule R71); a halted one warns
and is unchanged (rule R72; the warning itself is `stepOutcome` in HostInterface.lean); a fatal outcome of S2 or S6
latches its record; otherwise the fetched instruction runs (log 7, log 14). -/
def step (s : State) : Host.Outcome State Fault Refusal :=
  match prepare s with
  | .faulted r => .fault (.latched r)
  | .warned => .next s
  | .raised s' => .next s'
  | .run i s' => exec i s'

/-- The state with an opcode-table word placed where the next step fetches: its opcode cell at `pc`, and its operand
cell after it where the opcode consumes one (log 15). -/
def State.withFetchWord (s : State) (nbits w : Nat) : State :=
  match decode (tableCells nbits w) with
  | .ok (i, _) => s.placeCells ((tableCells nbits w).take i.length)
  | .error _ => s

end Sys2Proof.Machine
end

