-- ==== Sys2Proof/Machine/Inspector.lean ====
section
/-! DEFINITION. The Inspector's sweep over final memory (30_encoding.md rules R62, R63). It is host-side software,
outside the block; it is modelled because the report's grouping of the cells is its data (rule R184; log 17). -/

namespace Sys2Proof.Machine

/-- One line, or pair of lines, of the dump. -/
inductive DumpLine where
  /-- An instruction line and the operand line after it: two cells. -/
  | withOperand (mn : Mnemonic) (op operand : Word)
  /-- A single cell annotated with its mnemonic. -/
  | named (mn : Mnemonic) (op : Word)
  /-- A single cell, a bare numeric value. -/
  | bare (v : Word)
  deriving DecidableEq, Repr

/-- The cells a line shows. -/
def DumpLine.shown (l : DumpLine) : List Word :=
  match l with
  | .withOperand _ op operand => [op, operand]
  | .named _ op => [op]
  | .bare v => [v]

/-- Put a line before a dump that may have no specified output. -/
def prependLine (l : DumpLine) (rest : Option (List DumpLine)) : Option (List DumpLine) := rest.map (fun ls => l :: ls)

/-- The sweep over cells in address order. There is no specified output where the last cell holds an operand-consuming
value that the sweep reads as an opcode (rule R63, U11). -/
def sweep (cells : List Word) : Option (List DumpLine) :=
  match cells with
  | [] => some []
  | [v] =>
    match lookupOp v with
    | (_, true) => none
    | (.unknown, false) => some [.bare v]
    | (mn, false) => some [.named mn v]
  | v :: w :: rest =>
    match lookupOp v with
    | (mn, true) => prependLine (.withOperand mn v w) (sweep rest)
    | (.unknown, false) => prependLine (.bare v) (sweep (w :: rest))
    | (mn, false) => prependLine (.named mn v) (sweep (w :: rest))

/-- The Inspector: the sweep over a whole memory. It reads memory only and changes nothing (rules R62, R175). -/
def inspect (m : Memory) : Option (List DumpLine) := sweep m.cells

end Sys2Proof.Machine
end

