-- ==== Sys2Proof/Machine/HostInterface.lean ====
section
/-! DEFINITION. The host's side of the block: the outcome a step returns, the four host operations `Reset`, `Load`,
`Step` and `Observe` in their fixed order, the report and the driving loop (00_scope.md rule R6,
60_exceptions.md rule R163, 70_reset_and_hazards.md rules R180 to R186). -/

namespace Sys2Proof.Machine

/-- The outcome one step returns to the host (rules R6, R185). -/
inductive StepOutcome where
  /-- The step completed normally. -/
  | ok
  /-- The step was refused because the machine is halted; one warning event, no state change (rules R72, R163). -/
  | postHaltWarning
  /-- A fatal outcome, new or latched before, with its record (rules R71, R161, R164). -/
  | fault (r : FaultRecord)
  deriving DecidableEq, Repr

/-- The operation `Step`: the outcome and the state after it. A fatal outcome is the record the step left in the latch,
and the warning is the outcome of a step of a halted machine (rules R70 to R80, R163, R185). -/
def stepOutcome (s : State) : StepOutcome × State :=
  match step s with
  | .next s' =>
    match s'.fault with
    | some r => (.fault r, s')
    | none => (if s.halted then .postHaltWarning else .ok, s')
  | .fault (.latched r) => (.fault r, s)
  | .refused _ => (.ok, s)

/-- Whether an integer is the value of some cell (rule R3). -/
def inRange (v : Int) : Bool := decide (intMin ≤ v) && decide (v ≤ intMax)

/-- The memory that holds an image of eight integers in range: every cell its value (rule R27). -/
def Memory.ofImage (image : Vector Int Config.memSize) : Memory :=
  allAddrs.foldl (fun m a => m.write a (BitVec.ofInt Config.W (image.get a))) []

/-- `Load`'s effect: `M[i] <- IMAGE[i]` and `acc <- ACC_INIT`, and nothing else; a value outside
`[INT_MIN, INT_MAX]` is refused, not truncated (rule R181, decision D19). -/
def State.load (s : State) (image : Vector Int Config.memSize) (accInit : Int) : Option State :=
  if image.toList.all inRange && inRange accInit then
    some { s with mem := Memory.ofImage image, acc := BitVec.ofInt Config.W accInit }
  else none

/-- What the host reads of a run that ended softly: all cells in address order, `acc`, `pc` and `steps` (rule R184). -/
structure Report where
  cells : List Word
  acc : Word
  pc : Word
  steps : Nat
  deriving DecidableEq, Repr

/-- The report of a state (rule R184). -/
def State.report (s : State) : Report := ⟨s.mem.cells, s.acc, s.pc, s.steps⟩

/-- What `Observe` returns: the two status outputs, and the report when `halted` is true (rule R185). -/
structure Observation where
  halted : Bool
  fault : Option FaultRecord
  report : Option Report
  deriving DecidableEq, Repr

/-- `Observe`, read-only (rule R185). -/
def State.observe (s : State) : Observation := ⟨s.halted, s.fault, if s.halted then some s.report else none⟩

/-- Where the host is in the fixed order of operations: `Reset`, then one accepted `Load`, then steps (rule R185). -/
inductive Phase where
  | awaitingLoad
  | launched
  deriving DecidableEq, Repr

/-- The block as its host sees it: the machine and the place in the order of operations. The phase is the host
interface's own and no architectural state (rule R10; log 16). -/
structure Session where
  phase : Phase
  machine : State
  deriving DecidableEq, Repr

/-- The four host operations and their inputs (rule R185). -/
inductive HostOp where
  | reset
  | load (image : Vector Int Config.memSize) (accInit : Int)
  | step
  | observe
  deriving DecidableEq, Repr

/-- Why an operation is refused (rules R181, R185). -/
inductive HostRefusal where
  /-- A `Step` before the `Load`: not a transition of the model. -/
  | stepBeforeLoad
  /-- A second `Load`, or a `Load` after a step. -/
  | loadAfterLaunch
  /-- A `Load` with a value outside `[INT_MIN, INT_MAX]`. -/
  | valueOutOfRange
  deriving DecidableEq, Repr

/-- What an operation returns (rule R185). -/
inductive HostReply where
  | resetDone
  | loadAccepted
  | stepped (o : StepOutcome)
  | observed (o : Observation)
  | refused (why : HostRefusal)
  deriving DecidableEq, Repr

/-- The block after reset, before anything else. -/
def Session.reset : Session := ⟨.awaitingLoad, State.reset⟩

/-- One host operation: its reply and the block after it. A refused operation changes nothing (rules R180, R181,
R185). -/
def Session.apply (c : Session) (op : HostOp) : HostReply × Session :=
  match op with
  | .reset => (.resetDone, Session.reset)
  | .load image accInit =>
    match c.phase with
    | .launched => (.refused .loadAfterLaunch, c)
    | .awaitingLoad =>
      match c.machine.load image accInit with
      | some s => (.loadAccepted, ⟨.launched, s⟩)
      | none => (.refused .valueOutOfRange, c)
  | .step =>
    match c.phase with
    | .awaitingLoad => (.refused .stepBeforeLoad, c)
    | .launched => (.stepped (stepOutcome c.machine).1, ⟨.launched, (stepOutcome c.machine).2⟩)
  | .observe => (.observed c.machine.observe, c)

/-- How the driving loop stands when it returns (40_step_cycle.md rule R83). -/
inductive RunEnd where
  /-- Soft termination: the first state with `halted = true`, and its report. -/
  | soft (r : Report)
  /-- Hard termination: the first state with a fault; its record is all that is observable. -/
  | hard (r : FaultRecord)
  /-- Neither, within the steps allowed: the run has not ended. -/
  | unfinished
  deriving DecidableEq, Repr

/-- The host's driving loop, under fuel: it tests `halted` between steps and invokes `Step` until it is true, or until
a step returns a fault; the machine itself has no step limit (rules R183, R83, R84). -/
def drive (fuel : Nat) (s : State) : RunEnd × State :=
  if s.halted then (.soft s.report, s)
  else
    match fuel with
    | 0 => (.unfinished, s)
    | n + 1 =>
      match stepOutcome s with
      | (.fault r, s') => (.hard r, s')
      | (.postHaltWarning, s') => drive n s'
      | (.ok, s') => drive n s'

end Sys2Proof.Machine
end

