-- ==== Sys2Proof/WellFormed.lean ====
section
/-! DEFINITION. Which instruction terms the machine has (30_encoding.md rules R53, R57, R58). Any cell is a legal
operand, a negative one too, so the one check is on UNKNOWN: its raw value is none of the 24 table values. -/

namespace Sys2Proof

/-- Well-formed instructions: those some cells decode to. -/
def Instr.wellFormed (i : Instr) : Bool :=
  match i with
  | .nop => true
  | .sta _ => true
  | .lda _ => true
  | .add _ => true
  | .or _ => true
  | .and _ => true
  | .not => true
  | .sub _ => true
  | .jmp _ => true
  | .jn _ => true
  | .jp _ => true
  | .jv _ => true
  | .jnv _ => true
  | .jz _ => true
  | .jnz _ => true
  | .jc _ => true
  | .jnc _ => true
  | .jb _ => true
  | .jnb _ => true
  | .shr => true
  | .shl => true
  | .ror => true
  | .rol => true
  | .hlt => true
  | .unknown v => (tableRow v).isNone

end Sys2Proof
end

