-- ==== Sys2Proof/Safety.lean ====
section
/-! DEFINITION. The terms claims are stated in: the machine's three states, what a step is about to run, a launch state,
the end of a run, and the invariant of every reachable state (40_step_cycle.md rules R82, R83, 70_reset_and_hazards.md
rule R186, 10_state.md rule R16, 60_exceptions.md rule R161). -/

namespace Sys2Proof

/-- The mnemonics of the seven stubs of 45_stub_logic_shift.md. -/
def Mnemonic.isLogicShiftStub (mn : Mnemonic) : Bool := mn ∈ [.or, .and, .not, .shr, .shl, .ror, .rol]

/-- The mnemonics of the ten stubs of 46_stub_cond_jumps.md. -/
def Mnemonic.isCondJumpStub (mn : Mnemonic) : Bool := mn ∈ [.jn, .jp, .jv, .jnv, .jz, .jnz, .jc, .jnc, .jb, .jnb]

/-- The mnemonics whose operand stage S7 checks (rule R78). -/
def Mnemonic.checksTarget (mn : Mnemonic) : Bool := mn ∈ [.sta, .lda, .jmp]

/-- The mnemonics that use an unchecked operand as an address (rule R113). -/
def Mnemonic.readsUnchecked (mn : Mnemonic) : Bool := mn ∈ [.add, .sub]

/-- The mnemonics of the seventeen operand-consuming opcodes (rules R54, R59). -/
def Mnemonic.consumesOperand (mn : Mnemonic) : Bool :=
  mn ∈ [.sta, .lda, .add, .or, .and, .sub, .jmp] || mn.isCondJumpStub

end Sys2Proof

namespace Sys2Proof.Machine

/-- RUNNING: not halted and no fault (rule R82). -/
abbrev State.running (s : State) : Prop := s.halted = false ∧ s.fault = none

/-- The cells from the one the program counter names to the end of memory; none where it names none. -/
def State.cellsFromPc (s : State) : List Word :=
  match boundsCheck s.pc with
  | none => []
  | some p => s.mem.cells.drop p.val

/-- A RUNNING machine whose next opcode cell is the word `op`. -/
def State.fetchesOpcode (s : State) (op : Word) : Prop :=
  s.running ∧ ∃ p : Addr, s.pc.toInt = p.val ∧ s.mem.read p = op

/-- A RUNNING machine whose next opcode cell is the word `op` and whose cell after it is the word `a`. -/
def State.fetchesPair (s : State) (op a : Word) : Prop :=
  s.running ∧
    ∃ p q : Addr, s.pc.toInt = p.val ∧ q.val = p.val + 1 ∧ s.mem.read p = op ∧ s.mem.read q = a

/-- A word that names no cell: `v < 0` or `v >= MEM_SIZE = 8` as a signed integer (rules R73, R78, R113). -/
abbrev outside (v : Word) : Prop := v.toInt < 0 ∨ 8 ≤ v.toInt

/-- The fault records the table of rule R161 and rule R164 allow: which instruction each cause names, and which value
it records. -/
def FaultRecord.legal (r : FaultRecord) : Prop :=
  match r.cause with
  | .pcOutOfBounds => r.mnemonic = none ∧ r.addr = 8
  | .pcOverflowDuringFetch => (∃ mn, r.mnemonic = some mn ∧ mn.consumesOperand) ∧ r.addr = 8
  | .targetOutOfRange => (∃ mn, r.mnemonic = some mn ∧ mn.checksTarget) ∧ outside r.addr
  | .undefinedOperandRead => (∃ mn, r.mnemonic = some mn ∧ mn.readsUnchecked) ∧ outside r.addr

/-- The invariant of every reachable state: memory in canonical form, `0 <= pc <= 8` (rule R16), HALTED and FAULTED
exclude each other (rule R82), a latched record is one rule R161 allows, and a machine FAULTED for the program counter
stands at 8 (rule R169). -/
structure State.Inv (s : State) : Prop where
  memWf : s.mem.wf = true
  pcLow : 0 ≤ s.pc.toInt
  pcHigh : s.pc.toInt ≤ 8
  haltedNotFaulted : s.halted = true → s.fault = none
  recordLegal : ∀ r, s.fault = some r → r.legal
  pcOfRecord : ∀ r, s.fault = some r → r.cause = .pcOutOfBounds ∨ r.cause = .pcOverflowDuringFetch → s.pc = r.addr

/-- A launch state: reset, then one accepted load (the launch premises of rule R186). -/
def State.launch (s : State) (image : Vector Int Config.memSize) (accInit : Int) : Prop :=
  State.reset.load image accInit = some s

/-- A run of `k` steps that meets no FAULTED machine and ends at `s'`. -/
def State.reaches (s : State) (k : Nat) (s' : State) : Prop := core.run k s = .next s'

/-- The run from `s` ends softly within `k` steps, at `s'` (rule R83): a safe run. -/
def State.endsSoftly (s : State) (k : Nat) (s' : State) : Prop :=
  s.reaches k s' ∧ s'.halted = true ∧ s'.fault = none

end Sys2Proof.Machine
end

