-- ==== Sys2Proof/Certificates/Slice0/Obligations.lean ====
section
/-! DEFINITION. The statements for the provers. Each docstring names the rule it formalises. Where a statement rests on
a decision of the spec (92_eei_decisions.md) its docstring says so. -/

open Sys2Proof Sys2Proof.Machine

/-! ## Reset and the host interface -/

/-- Rule R22. -/
def Obligations.ResetMemoryIsZero : Prop :=
  ∀ a : Addr, State.reset.mem.read a = 0

/-- The operation `Reset`, from any block, puts every state element at its reset value. `steps = 0` is derived by the
spec (R25), `fault = None` is decision D5, `acc = 0` before load is decision D12 (log 10). -/
def Obligations.ResetRestoresEveryElement : Prop :=
  ∀ c : Session,
    (c.apply .reset).1 = .resetDone ∧ (c.apply .reset).2.phase = .awaitingLoad ∧
    (∀ a : Addr, (c.apply .reset).2.machine.mem.read a = 0) ∧ (c.apply .reset).2.machine.acc = 0 ∧
    (c.apply .reset).2.machine.pc = 0 ∧ (c.apply .reset).2.machine.steps = 0 ∧
    (c.apply .reset).2.machine.halted = false ∧ (c.apply .reset).2.machine.fault = none

/-- Rule R27. -/
def Obligations.LoadSetsImageAndAccumulator : Prop :=
  ∀ (image : Vector Int Config.memSize) (accInit : Int),
    (∀ i, intMin ≤ image.get i ∧ image.get i ≤ intMax) → intMin ≤ accInit ∧ accInit ≤ intMax →
    ∃ s, State.reset.load image accInit = some s ∧
      (∀ i : Addr, (s.mem.read i).toInt = image.get i) ∧ s.acc.toInt = accInit ∧
      s.pc = State.reset.pc ∧ s.steps = State.reset.steps ∧ s.halted = State.reset.halted ∧
      s.fault = State.reset.fault

/-- A `Load` with a value outside `[INT_MIN, INT_MAX]` is refused and changes nothing (decision D19). -/
def Obligations.LoadRefusesValueOutOfRange : Prop :=
  ∀ (c : Session) (image : Vector Int Config.memSize) (accInit : Int), c.phase = .awaitingLoad →
    (∃ i, image.get i < intMin ∨ intMax < image.get i) ∨ accInit < intMin ∨ intMax < accInit →
    c.apply (.load image accInit) = (.refused .valueOutOfRange, c)

/-- The order of the host operations (decisions D9, D17): a `Step` before the `Load` and a `Load` after it are refused
and change nothing, `Observe` changes nothing and gives the report only when `halted` is true, and a `Step` of a
launched block is the engine's. -/
def Obligations.HostOperationsKeepTheirOrder : Prop :=
  ∀ c : Session,
    (c.phase = .awaitingLoad → c.apply .step = (.refused .stepBeforeLoad, c)) ∧
    (c.phase = .launched →
      (∀ image accInit, c.apply (.load image accInit) = (.refused .loadAfterLaunch, c)) ∧
      c.apply .step = (.stepped (stepOutcome c.machine).1, ⟨.launched, (stepOutcome c.machine).2⟩)) ∧
    (c.apply .observe).2 = c ∧
    (c.apply .observe).1 = .observed ⟨c.machine.halted, c.machine.fault,
      if c.machine.halted then some ⟨c.machine.mem.cells, c.machine.acc, c.machine.pc, c.machine.steps⟩ else none⟩

/-- Whatever the host did since the first reset, a `Load` is accepted only while the machine is in its reset state, and
the accepted load makes a launch state (rules R181, R185; decision D17). -/
def Obligations.LoadIsAcceptedOnlyInResetState : Prop :=
  ∀ (ops : List HostOp) (image : Vector Int Config.memSize) (accInit : Int) (c : Session),
    ops.foldl (fun d op => (d.apply op).2) Session.reset = c →
    (c.apply (.load image accInit)).1 = .loadAccepted →
    c.machine = State.reset ∧ (c.apply (.load image accInit)).2.machine.launch image accInit ∧
      (c.apply (.load image accInit)).2.phase = .launched

/-- `pc` starts at 0, load does not move it (rules R24, R27), and so the first step runs the instruction at address 0
(rules R70 to R77). That the step is `exec` from `steps` counted and `pc` at the last cell is log 13. -/
def Obligations.EntryPointIsAddressZero : Prop :=
  State.reset.pc = 0 ∧
  ∀ (image : Vector Int Config.memSize) (accInit : Int) (s : State), s.launch image accInit →
    s.pc = 0 ∧ ∃ i rest, decode s.mem.cells = .ok (i, rest) ∧
      step s = exec i { s with steps := s.steps + 1, pc := BitVec.ofNat Config.W (i.length - 1) }

/-! ## Encoding -/

/-- Decode and encode agree, for every well-formed instruction with every operand. -/
def Obligations.DecodeOfEncodeIsTheInstruction : Prop :=
  ∀ (i : Instr) (rest : List Word), i.wellFormed = true → decode (encode i ++ rest) = .ok (i, rest)

/-- The other direction: what the decoder reads is well-formed, and encoding it gives back the cells it was read from. -/
def Obligations.EncodeOfDecodeIsTheCells : Prop :=
  ∀ (cells : List Word) (i : Instr) (rest : List Word), decode cells = .ok (i, rest) →
    i.wellFormed = true ∧ encode i ++ rest = cells ∧ i.length = (encode i).length

/-- A few words written out from the tables of rules R51, R52 and R54, one of each family, decode to their
instructions. The value of JZ is decision D3 (log 2). -/
def Obligations.WordsFromTheTableDecode : Prop :=
  decode [0x00000000] = .ok (.nop, []) ∧ decode [0x00000010, 5] = .ok (.sta 5, []) ∧
  decode [0x00000070, 0xFFFFFFFF] = .ok (.sub (-1), []) ∧ decode [0x00000080, 4] = .ok (.jmp 4, []) ∧
  decode [0x000000A0, 5] = .ok (.jz 5, []) ∧ decode [0x000000E1] = .ok (.shl, []) ∧
  decode [0x000000F0] = .ok (.hlt, []) ∧ decode [0x00000110] = .ok (.unknown 0x110, [])

/-- A cell selects a table row exactly when its whole value, as a signed integer, is the row's (rules R53, R54;
decision D10), and no two of the 24 rows share a value. -/
def Obligations.CellSelectsARowByExactValue : Prop :=
  opTable.length = 24 ∧ opTable.Pairwise (fun r q => r.value ≠ q.value ∧ r.mnemonic ≠ q.mnemonic) ∧
  ∀ (v : Word) (r : OpRow), r ∈ opTable → (lookupOp v = (r.mnemonic, r.consumes) ↔ v.toInt = r.value)

/-- Rule R57: every cell value is accepted as an opcode, and a value outside the table is a one-cell UNKNOWN, which
never consumes the next cell and acts as NOP does. -/
def Obligations.EveryCellValueDecodes : Prop :=
  (∀ (op a : Word) (rest : List Word), ∃ i rest', decode (op :: a :: rest) = .ok (i, rest')) ∧
  ∀ (op : Word) (rest : List Word), (∀ r ∈ opTable, r.value ≠ op.toInt) →
    decode (op :: rest) = .ok (.unknown op, rest) ∧
    ∀ s : State, exec (.unknown op) s = .next { s with pc := s.pc + 1 } ∧ exec .nop s = exec (.unknown op) s

/-- An instruction is two cells long exactly when its opcode is one of the seventeen format A values (rule R59, derived
by the spec; the eight interior values are decision D3, log 2). -/
def Obligations.LengthIsDecidedByTheOpcode : Prop :=
  ∀ (op : Word) (cells : List Word) (i : Instr) (rest : List Word), decode (op :: cells) = .ok (i, rest) →
    (op.toInt ∈ [0x10, 0x20, 0x30, 0x40, 0x50, 0x70, 0x80, 0x90, 0x94, 0x98, 0x9C, 0xA0, 0xA4, 0xB0, 0xB4, 0xB8, 0xBC] →
      i.length = 2 ∧ cells.length = rest.length + 1) ∧
    (op.toInt ∉ [0x10, 0x20, 0x30, 0x40, 0x50, 0x70, 0x80, 0x90, 0x94, 0x98, 0x9C, 0xA0, 0xA4, 0xB0, 0xB4, 0xB8, 0xBC] →
      i.length = 1 ∧ cells = rest)

/-! ## The step -/

/-- When the cells from the program counter on decode to an instruction, a step of a RUNNING machine is `exec` of it,
with `steps` counted and `pc` moved to the instruction's last cell (rules R70 to R77; log 13). -/
def Obligations.StepRunsTheDecodedInstruction : Prop :=
  ∀ (s : State) (i : Instr) (rest : List Word), s.running → decode s.cellsFromPc = .ok (i, rest) →
    step s = exec i { s with steps := s.steps + 1, pc := s.pc + BitVec.ofNat Config.W (i.length - 1) }

/-- Rule R72: at any `pc`, and for any number of steps. -/
def Obligations.HaltedStepWarnsAndChangesNothing : Prop :=
  ∀ s : State, s.fault = none → s.halted = true →
    stepOutcome s = (.postHaltWarning, s) ∧ ∀ n, core.run n s = .next s

/-- A FAULTED machine has no next state; each step returns the latched record again (rule R71, decision D18; log 7). -/
def Obligations.FaultedStepReturnsTheRecordAgain : Prop :=
  ∀ (s : State) (r : FaultRecord), s.fault = some r →
    stepOutcome s = (.fault r, s) ∧ ∀ n, core.run (n + 1) s = .fault (.latched r)

/-- No step is refused, and every step of a machine that is not FAULTED has a next state: there is no instruction, no
operand and no memory the engine stops on by itself (rules R6, R57; log 7). -/
def Obligations.EveryUnfaultedStepHasANextState : Prop :=
  ∀ s : State, (s.fault = none → ∃ s', step s = .next s') ∧ ∀ why, step s ≠ .refused why

/-- PC_OUT_OF_BOUNDS (rule R73): nothing but the latch changes, `steps` included. The latch and its record are
decisions D5 and D8 (log 7). -/
def Obligations.ProgramCounterOutOfBoundsIsFatal : Prop :=
  ∀ s : State, s.running → outside s.pc →
    step s = .next { s with fault := some ⟨.pcOutOfBounds, none, s.pc⟩ }

/-- PC_OVERFLOW_DURING_FETCH (rule R77): each of the seventeen operand-consuming opcodes at address 7, stubs included.
`pc` and `steps` after it are decision D6, the latch D5 (log 7). -/
def Obligations.OperandFetchPastMemoryIsFatal : Prop :=
  ∀ (s : State) (mn : Mnemonic), s.running → s.pc = 7 → (lookupOp (s.mem.read 7)).1 = mn → mn.consumesOperand = true →
    step s = .next { s with
      steps := s.steps + 1, pc := 8, fault := some ⟨.pcOverflowDuringFetch, some mn, 8⟩ }

/-- TARGET_OUT_OF_RANGE (rule R78) for STA, LDA and JMP. `pc` and `steps` after it are decision D6, the latch D5
(log 7). -/
def Obligations.CheckedTargetOutsideMemoryIsFatal : Prop :=
  ∀ (s : State) (op a : Word) (mn : Mnemonic), (op, mn) ∈ [((0x10 : Word), Mnemonic.sta), (0x20, .lda), (0x80, .jmp)] →
    s.fetchesPair op a → outside a →
    step s = .next { s with
      steps := s.steps + 1, pc := s.pc + 1, fault := some ⟨.targetOutOfRange, some mn, a⟩ }

/-- The known defect (rule R113): ADD and SUB do not check their operand. The outcome is `UndefinedOperandRead`,
decision D4, which is no `FatalBoundsError`; `acc` and memory keep their values (log 12). -/
def Obligations.UncheckedOperandIsAnUndefinedRead : Prop :=
  FaultCause.undefinedOperandRead.isFatalBoundsError = false ∧
  ∀ (s : State) (op a : Word) (mn : Mnemonic), (op, mn) ∈ [((0x30 : Word), Mnemonic.add), (0x70, .sub)] →
    s.fetchesPair op a → outside a →
    step s = .next { s with
      steps := s.steps + 1, pc := s.pc + 1, fault := some ⟨.undefinedOperandRead, some mn, a⟩ }

/-- A step that latches a record leaves memory, `acc` and `halted` as they were, and `steps` and `pc` as the table of
rule R169 says (decision D6). -/
def Obligations.FaultsArePrecise : Prop :=
  ∀ (s s' : State) (r : FaultRecord), s.fault = none → step s = .next s' → s'.fault = some r →
    s'.mem = s.mem ∧ s'.acc = s.acc ∧ s'.halted = s.halted ∧
    (r.cause = .pcOutOfBounds → s'.steps = s.steps ∧ s'.pc = s.pc) ∧
    (r.cause ≠ .pcOutOfBounds → s'.steps = s.steps + 1 ∧ s'.pc = s.pc + 1)

/-- The state machine of rule R82: a RUNNING machine steps to exactly one of RUNNING, HALTED and FAULTED; a HALTED one
stays as it is; a FAULTED one has no next state (FAULTED is decision D5). -/
def Obligations.StateMachineHasThreeStates : Prop :=
  ∀ s s' : State, step s = .next s' →
    s.fault = none ∧ (s.halted = true → s' = s) ∧
    (s.running → s'.running ∨ (s'.halted = true ∧ s'.fault = none) ∨ (s'.halted = false ∧ s'.fault ≠ none))

/-- Every step that passes the halted check and the program-counter check counts once, whatever the opcode and however
the step ends (rule R74); no other step counts (rules R17, R72, R73). That a step with a fatal outcome has a next state
is log 7, and that `steps` has counted in it is decision D6 (log 18). -/
def Obligations.StepCounterCountsExecutedInstructions : Prop :=
  ∀ s : State,
    (s.running → ¬ outside s.pc → ∃ s', step s = .next s' ∧ s'.steps = s.steps + 1) ∧
    (∀ s', step s = .next s' → s.halted = true ∨ outside s.pc → s'.steps = s.steps)

/-- The step counter has no influence: from another count the step goes the same way, counts the same, and leaves every
other element the same (rule R17). -/
def Obligations.StepCounterHasNoInfluence : Prop :=
  ∀ (s t : State) (n : Nat), step s = .next t →
    ∃ k, k ≤ 1 ∧ t.steps = s.steps + k ∧ step { s with steps := n } = .next { t with steps := n + k }

/-- Rule R15: how `pc` moves in a completed step. -/
def Obligations.ProgramCounterMovesByTheInstruction : Prop :=
  ∀ (s s' : State) (p : Addr) (mn : Mnemonic), s.running → s.pc.toInt = p.val → (lookupOp (s.mem.read p)).1 = mn →
    step s = .next s' → s'.fault = none →
    (mn ∈ [.nop, .not, .shr, .shl, .ror, .rol, .hlt, .unknown] → s'.pc = s.pc + 1) ∧
    (mn ∈ [.sta, .lda, .add, .or, .and, .sub] ∨ mn.isCondJumpStub = true → s'.pc = s.pc + 2) ∧
    (mn = .jmp → ∃ q : Addr, q.val = p.val + 1 ∧ s'.pc = s.mem.read q ∧ 0 ≤ s'.pc.toInt ∧ s'.pc.toInt ≤ 7)

/-- The final advance of every instruction but JMP is one, with no bounds check, so that only an operand outside memory
makes an instruction end in a fault; JMP has no final advance, and HLT's comes with its flag set (rules R78, R80). That
a fatal outcome is a next state with the record latched is log 7 (decision D5), that ADD and SUB latch one is decision
D4 (log 12), and that `exec` is these last stages is log 13. -/
def Obligations.FinalAdvanceIsUncheckedAndByOne : Prop :=
  ∀ (i : Instr) (s : State), s.fault = none →
    ∃ s', exec i s = .next s' ∧
      (s'.fault ≠ none → ∃ a, outside a ∧ i ∈ [.sta a, .lda a, .add a, .sub a, .jmp a]) ∧
      (s'.fault = none →
        ((∀ a, i ≠ .jmp a) → s'.pc = s.pc + 1) ∧ (∀ a, i = .jmp a → s'.pc = a) ∧ (i = .hlt → s'.halted = true))

/-! ## Who reads and writes what -/

/-- Rule R34: a write changes one cell and nothing else, and the only instruction that writes memory is STA. -/
def Obligations.OnlyStaWritesMemory : Prop :=
  (∀ (s : State) (a : Addr) (v : Word), (s.writeMem a v).mem.read a = v ∧
    (∀ b, b ≠ a → (s.writeMem a v).mem.read b = s.mem.read b) ∧ (s.writeMem a v).acc = s.acc ∧
    (s.writeMem a v).pc = s.pc ∧ (s.writeMem a v).steps = s.steps ∧ (s.writeMem a v).halted = s.halted ∧
    (s.writeMem a v).fault = s.fault) ∧
  ∀ s s' : State, step s = .next s' → s'.mem ≠ s.mem → ∃ a, s.fetchesPair 0x10 a

/-- `acc` is written by LDA, ADD and SUB and by nothing else, and read by STA, ADD and SUB and by nothing else (rule
R13): any other instruction, from another `acc`, changes every other element the same way, and LDA leaves the same
`acc` too. The last clause says that the four do read and write it (rules R100, R101, R110, R111); for ADD and SUB it is
said where the result fits, and `AddSubStep` says it for every result. That LDA and JMP answer a next state for an
operand outside memory too is log 7 (decision D5), and that `exec` is the last stages of a step is log 13. -/
def Obligations.AccumulatorReadersAndWriters : Prop :=
  (∀ (i : Instr) (s s' : State), exec i s = .next s' → s'.acc ≠ s.acc → i.mnemonic ∈ [.lda, .add, .sub]) ∧
  (∀ (i : Instr) (s : State) (v : Word), i.mnemonic ∉ [.sta, .add, .sub] →
    ∃ t t', exec i s = .next t ∧ exec i { s with acc := v } = .next t' ∧ { t' with acc := t.acc } = t ∧
      (i.mnemonic = .lda → s.fault = none → t.fault = none → t'.acc = t.acc)) ∧
  ∀ (s : State) (a : Word) (c : Addr), a.toInt = c.val →
    (∃ t, exec (.sta a) s = .next t ∧ t.mem.read c = s.acc ∧ t.acc = s.acc) ∧
    (∃ t, exec (.lda a) s = .next t ∧ t.acc = s.mem.read c) ∧
    (intMin ≤ s.acc.toInt + (s.mem.read c).toInt → s.acc.toInt + (s.mem.read c).toInt ≤ intMax →
      ∃ t, exec (.add a) s = .next t ∧ t.acc.toInt = s.acc.toInt + (s.mem.read c).toInt) ∧
    (intMin ≤ s.acc.toInt - (s.mem.read c).toInt → s.acc.toInt - (s.mem.read c).toInt ≤ intMax →
      ∃ t, exec (.sub a) s = .next t ∧ t.acc.toInt = s.acc.toInt - (s.mem.read c).toInt)

/-- HLT sets `halted` and still advances `pc`; every later step is refused with a warning and
changes nothing; no other opcode sets the flag; no step clears it, a reset does; and no instruction reads
it (rules R18, R72, R91). That every instruction answers a next state, with an operand outside memory too, is log 7
(decision D5) and for ADD and SUB log 12 (decision D4); that a halted step's next state is the same state is log 14,
and that `exec` is the last stages of a step is log 13. -/
def Obligations.HaltedIsSetByHltAloneAndIsFinal : Prop :=
  lookupOp 0xF0 = (.hlt, false) ∧
  (∀ s : State, s.fetchesOpcode 0xF0 →
    step s = .next { s with steps := s.steps + 1, halted := true, pc := s.pc + 1 } ∧
    ∀ t, step s = .next t → stepOutcome t = (.postHaltWarning, t) ∧ ∀ n, core.run n t = .next t) ∧
  (∀ s s' : State, step s = .next s' → s.halted = false → s'.halted = true → s.fetchesOpcode 0xF0) ∧
  (∀ s s' : State, step s = .next s' → s.halted = true → s'.halted = true) ∧
  (∀ c : Session, (c.apply .reset).2.machine.halted = false) ∧
  ∀ (i : Instr) (s : State) (b : Bool),
    ∃ t t', exec i s = .next t ∧ exec i { s with halted := b } = .next t' ∧ { t' with halted := t.halted } = t

/-! ## The instructions, at their meaning -/

/-- NOP, UNKNOWN and the seventeen stubs complete in every state: nothing changes but the final advance. -/
def Obligations.NopUnknownAndStubsOnlyAdvance : Prop :=
  ∀ (i : Instr) (s : State),
    i.mnemonic ∈ [.nop, .unknown] ∨ i.mnemonic.isLogicShiftStub = true ∨ i.mnemonic.isCondJumpStub = true →
    exec i s = .next { s with pc := s.pc + 1 }

/-- STA, LDA, ADD, SUB, JMP and HLT complete: their whole effect when the operand names a cell. ADD and SUB wrap
(decision D2, log 11). -/
def Obligations.EffectiveInstructionsComplete : Prop :=
  ∀ (s : State) (a : Word) (t : Addr), a.toInt = t.val →
    (∃ s', exec (.sta a) s = .next s' ∧ s'.mem.read t = s.acc ∧ (∀ b, b ≠ t → s'.mem.read b = s.mem.read b) ∧
      s'.acc = s.acc ∧ s'.pc = s.pc + 1 ∧ s'.steps = s.steps ∧ s'.halted = s.halted ∧ s'.fault = s.fault) ∧
    exec (.lda a) s = .next { s with acc := s.mem.read t, pc := s.pc + 1 } ∧
    exec (.add a) s = .next { s with acc := wrapW (s.acc.toInt + (s.mem.read t).toInt), pc := s.pc + 1 } ∧
    exec (.sub a) s = .next { s with acc := wrapW (s.acc.toInt - (s.mem.read t).toInt), pc := s.pc + 1 } ∧
    exec (.jmp a) s = .next { s with pc := a } ∧
    exec .hlt s = .next { s with halted := true, pc := s.pc + 1 }

/-! ## The instructions, at the step -/

/-- Rule R90. A NOP at address 7 leaves `pc = 8` and the following step faults; an all-zero memory executes eight NOPs
and faults on the ninth step. -/
def Obligations.NopStep : Prop :=
  lookupOp 0 = (.nop, false) ∧
  (∀ s : State, s.fetchesOpcode 0 →
    step s = .next { s with steps := s.steps + 1, pc := s.pc + 1 } ∧
    (s.pc = 7 → ∀ t, step s = .next t →
      t.pc = 8 ∧ ∃ r, (stepOutcome t).1 = .fault r ∧ r.cause = .pcOutOfBounds)) ∧
  ∀ s : State, s.running → s.pc = 0 → (∀ a, s.mem.read a = 0) →
    core.run 8 s = .next { s with steps := s.steps + 8, pc := 8 } ∧
    ∃ r, (stepOutcome { s with steps := s.steps + 8, pc := 8 }).1 = .fault r ∧ r.cause = .pcOutOfBounds

/-- UNKNOWN (rule R92): a cell that is none of the 24 table values, negative values and values above 0xFF included, is
a one-cell no-op. That 0x91 to 0xBB outside the ten values are UNKNOWN is decision D3 (log 2), that cells are compared
whole is D10 (log 4). -/
def Obligations.UnknownStep : Prop :=
  ∀ (s : State) (v : Word), s.fetchesOpcode v →
    v.toInt ∉ [0x00, 0x10, 0x20, 0x30, 0x40, 0x50, 0x60, 0x70, 0x80, 0x90, 0x94, 0x98, 0x9C, 0xA0, 0xA4, 0xB0, 0xB4, 0xB8,
      0xBC, 0xE0, 0xE1, 0xE2, 0xE3, 0xF0] →
    step s = .next { s with steps := s.steps + 1, pc := s.pc + 1 }

/-- Rule R100. The store may hit STA's own cells: they were read before it. -/
def Obligations.StaStep : Prop :=
  lookupOp 0x10 = (.sta, true) ∧
  (∀ (s : State) (a : Word) (t : Addr), s.fetchesPair 0x10 a → a.toInt = t.val →
    ∃ s', step s = .next s' ∧ s'.mem.read t = s.acc ∧ (∀ b, b ≠ t → s'.mem.read b = s.mem.read b) ∧ s'.acc = s.acc ∧
      s'.pc = s.pc + 2 ∧ s'.steps = s.steps + 1 ∧ s'.halted = s.halted ∧ s'.fault = none) ∧
  (∀ s : State, s.running → s.pc = 7 → s.mem.read 7 = 0x10 →
    ∃ r, (stepOutcome s).1 = .fault r ∧ r.cause = .pcOverflowDuringFetch) ∧
  ∀ (s : State) (a : Word), s.fetchesPair 0x10 a → outside a →
    (stepOutcome s).1 = .fault ⟨.targetOutOfRange, some .sta, a⟩ ∧ (stepOutcome s).2.mem = s.mem

/-- Rule R101. -/
def Obligations.LdaStep : Prop :=
  lookupOp 0x20 = (.lda, true) ∧
  (∀ (s : State) (a : Word) (t : Addr), s.fetchesPair 0x20 a → a.toInt = t.val →
    step s = .next { s with steps := s.steps + 1, acc := s.mem.read t, pc := s.pc + 2 }) ∧
  (∀ s : State, s.running → s.pc = 7 → s.mem.read 7 = 0x20 →
    ∃ r, (stepOutcome s).1 = .fault r ∧ r.cause = .pcOverflowDuringFetch) ∧
  ∀ (s : State) (a : Word), s.fetchesPair 0x20 a → outside a →
    (stepOutcome s).1 = .fault ⟨.targetOutOfRange, some .lda, a⟩ ∧ (stepOutcome s).2.acc = s.acc

/-- ADD and SUB (rules R110, R111) on an operand that names a cell: the result is the signed integer in range that is
congruent to the exact sum or difference modulo `2^W` (decision D2, log 11), and the exact one where it fits. -/
def Obligations.AddSubStep : Prop :=
  ∀ (s : State) (a : Word) (t : Addr), a.toInt = t.val →
    (s.fetchesPair 0x30 a →
      ∃ v, step s = .next { s with steps := s.steps + 1, acc := v, pc := s.pc + 2 } ∧
        (2 ^ Config.W : Int) ∣ v.toInt - (s.acc.toInt + (s.mem.read t).toInt) ∧
        (intMin ≤ s.acc.toInt + (s.mem.read t).toInt → s.acc.toInt + (s.mem.read t).toInt ≤ intMax →
          v.toInt = s.acc.toInt + (s.mem.read t).toInt)) ∧
    (s.fetchesPair 0x70 a →
      ∃ v, step s = .next { s with steps := s.steps + 1, acc := v, pc := s.pc + 2 } ∧
        (2 ^ Config.W : Int) ∣ v.toInt - (s.acc.toInt - (s.mem.read t).toInt) ∧
        (intMin ≤ s.acc.toInt - (s.mem.read t).toInt → s.acc.toInt - (s.mem.read t).toInt ≤ intMax →
          v.toInt = s.acc.toInt - (s.mem.read t).toInt))

/-- `wrap_W` is the unique integer in range congruent to its argument modulo `2^W` (rule R7; that ADD and SUB use it is
decision D2, log 11). -/
def Obligations.WrapIsTheUniqueCongruentValue : Prop :=
  ∀ v : Int, intMin ≤ (wrapW v).toInt ∧ (wrapW v).toInt ≤ intMax ∧ (2 ^ Config.W : Int) ∣ (wrapW v).toInt - v ∧
    ∀ r : Int, intMin ≤ r → r ≤ intMax → (2 ^ Config.W : Int) ∣ r - v → r = (wrapW v).toInt

/-- The source property of rule R110, for all cell values by decision D2 (log 11): two ADDs equal one ADD of the sum. -/
def Obligations.AddTwiceIsAddOfTheSum : Prop :=
  ∀ (s : State) (x y z : Word) (i j k : Addr), x.toInt = i.val → y.toInt = j.val → z.toInt = k.val →
    s.mem.read k = wrapW ((s.mem.read i).toInt + (s.mem.read j).toInt) →
    ∃ t u w, exec (.add x) s = .next t ∧ exec (.add y) t = .next u ∧ exec (.add z) s = .next w ∧ u.acc = w.acc

/-- JMP (rule R120). The last clause reads `pc` of a FAULTED machine: that is decision D6 (rule R169; log 18). -/
def Obligations.JmpStep : Prop :=
  lookupOp 0x80 = (.jmp, true) ∧
  (∀ (s : State) (a : Word), s.fetchesPair 0x80 a → ¬ outside a →
    step s = .next { s with steps := s.steps + 1, pc := a }) ∧
  (∀ s : State, s.running → s.pc = 7 → s.mem.read 7 = 0x80 →
    ∃ r, (stepOutcome s).1 = .fault r ∧ r.cause = .pcOverflowDuringFetch) ∧
  ∀ (s : State) (a : Word), s.fetchesPair 0x80 a → outside a →
    (stepOutcome s).1 = .fault ⟨.targetOutOfRange, some .jmp, a⟩ ∧ (stepOutcome s).2.pc = s.pc + 1

/-- Rule R137: the seven logic and shift stubs change nothing but `steps` and `pc`, whatever `acc` and the operand; OR
and AND are subject to the operand-fetch check. -/
def Obligations.LogicAndShiftStubsDoNothing : Prop :=
  (∀ (s : State) (op a : Word), op ∈ [(0x40 : Word), 0x50] → s.fetchesPair op a →
    step s = .next { s with steps := s.steps + 1, pc := s.pc + 2 }) ∧
  (∀ (s : State) (op : Word), op ∈ [(0x60 : Word), 0xE0, 0xE1, 0xE2, 0xE3] → s.fetchesOpcode op →
    step s = .next { s with steps := s.steps + 1, pc := s.pc + 1 }) ∧
  ∀ (s : State) (mn : Mnemonic), s.running → s.pc = 7 → lookupOp (s.mem.read 7) = (mn, true) → mn.isLogicShiftStub = true →
    ∃ r, (stepOutcome s).1 = .fault r ∧ r.cause = .pcOverflowDuringFetch

/-- Rule R150: the ten conditional jumps never branch, whatever `acc` and the operand, and have the effect of OR and
AND; they are subject to the operand-fetch check. Which values the ten have is decision D3 and stands in no clause. -/
def Obligations.ConditionalJumpsFallThrough : Prop :=
  (∀ mn : Mnemonic, mn.isCondJumpStub = true → ∃ op, lookupOp op = (mn, true)) ∧
  (∀ (s : State) (op a : Word),
    (lookupOp op).1.isCondJumpStub = true ∨ (lookupOp op).1 = .or ∨ (lookupOp op).1 = .and → s.fetchesPair op a →
    step s = .next { s with steps := s.steps + 1, pc := s.pc + 2 }) ∧
  ∀ (s : State) (mn : Mnemonic), s.running → s.pc = 7 → lookupOp (s.mem.read 7) = (mn, true) → mn.isCondJumpStub = true →
    ∃ r, (stepOutcome s).1 = .fault r ∧ r.cause = .pcOverflowDuringFetch

/-- A store is seen by the very next fetch (rule R40, derived by the spec): an STA into the cell after it makes the
next opcode the stored value. -/
def Obligations.StoreIsSeenByTheNextFetch : Prop :=
  ∀ (s : State) (a : Word), s.fetchesPair 0x10 a → a.toInt = s.pc.toInt + 2 → a.toInt ≤ 7 →
    ∃ s', step s = .next s' ∧ s'.fetchesOpcode s.acc

/-! ## Invariants and runs -/

/-- The invariant of `State.Inv`, kept by every step from every state that has it (rules R16, R82, R161). Its
record clauses are decisions D5, D6 and D8 (log 7, 18, 20). -/
def Obligations.StepKeepsTheInvariant : Prop :=
  ∀ s s' : State, s.Inv → step s = .next s' → s'.Inv

/-- The reset state has the invariant. -/
def Obligations.ResetHasTheInvariant : Prop := State.reset.Inv

/-- Every launch state has the invariant, whatever the image. -/
def Obligations.LaunchHasTheInvariant : Prop :=
  ∀ (image : Vector Int Config.memSize) (accInit : Int) (s : State), s.launch image accInit → s.Inv

/-- In every state a run from any launch state reaches, the invariant holds, `steps` is at most the number of steps
invoked, and it is that number while the machine is RUNNING (rules R16, R17, R74, R82, R161). The record clauses of
`State.Inv` and `steps` of a FAULTED state are decisions D5, D6 and D8 (log 7, 18, 20). -/
def Obligations.RunsFromLaunchKeepTheInvariant : Prop :=
  ∀ (image : Vector Int Config.memSize) (accInit : Int) (s s' : State) (k : Nat), s.launch image accInit →
    s.reaches k s' → s'.Inv ∧ s'.steps ≤ k ∧ (s'.running → s'.steps = k)

/-- The driving loop (rules R83, R183): a soft end is the first halted state of the run, with its report; a hard end is
a state of the run with the returned record latched; an unfinished run is RUNNING. -/
def Obligations.DrivingLoopEndsAtTheFirstHaltOrFault : Prop :=
  ∀ (n : Nat) (s t : State) (e : RunEnd), s.fault = none → drive n s = (e, t) →
    ∃ k, k ≤ n ∧ s.reaches k t ∧ (∀ j u, j < k → s.reaches j u → u.running) ∧
      (∀ r, e = .soft r → t.halted = true ∧ t.fault = none ∧ r = t.report) ∧
      (∀ r, e = .hard r → t.halted = false ∧ t.fault = some r) ∧
      (e = .unfinished → k = n ∧ t.running)

/-- A JMP whose operand is its own address never ends: `steps` grows by one per step, nothing else changes, and the
driving loop is unfinished whatever its fuel (rule R84, derived by the spec; rule R120). -/
def Obligations.JumpToItselfNeverEnds : Prop :=
  ∀ (s : State) (a : Word), s.fetchesPair 0x80 a → s.pc = a →
    ∀ n, core.run n s = .next { s with steps := s.steps + n } ∧
      drive n s = (.unfinished, { s with steps := s.steps + n })

/-- The Inspector's sweep, where it has a specified output, shows every cell of memory exactly once and in address
order, and pairs a cell with its operand exactly when the opcode table says so (rule R62); it has none only where the
last cell holds an operand-consuming value (rule R63, U11; log 17). -/
def Obligations.InspectorShowsEveryCellOnce : Prop :=
  (∀ (m : Memory) (ls : List DumpLine), inspect m = some ls →
    ls.flatMap DumpLine.shown = m.cells ∧
    ∀ l ∈ ls, (∀ mn op a, l = .withOperand mn op a → lookupOp op = (mn, true)) ∧
      (∀ mn op, l = .named mn op → lookupOp op = (mn, false) ∧ mn ≠ .unknown) ∧
      (∀ v, l = .bare v → lookupOp v = (.unknown, false))) ∧
  ∀ m : Memory, inspect m = none → (lookupOp (m.read 7)).2 = true
end

