-- ==== Sys2Proof/Laws/Decode.lean ====
section
/-! SUPPORT. The laws of the decoder: what a lookup answers, and the mnemonic and length of an assembled instruction
(30_encoding.md rules R53 to R59). -/

namespace Sys2Proof

theorem tableRow_mem (v : Word) (r : OpRow) (h : tableRow v = some r) : r ∈ opTable ∧ r.value = v.toInt :=
  ⟨List.mem_of_find?_eq_some h, by simpa using List.find?_some h⟩

/-- Everything a lookup answers: the row of the cell's value, or UNKNOWN where no row has that value. -/
theorem lookupOp_cases (v : Word) :
    (∃ r ∈ opTable, r.value = v.toInt ∧ tableRow v = some r ∧ lookupOp v = (r.mnemonic, r.consumes)) ∨
    ((∀ r ∈ opTable, r.value ≠ v.toInt) ∧ tableRow v = none ∧ lookupOp v = (.unknown, false)) := by
  cases h : tableRow v with
  | some r => exact .inl ⟨r, (tableRow_mem v r h).1, (tableRow_mem v r h).2, rfl, by simp [lookupOp, h]⟩
  | none =>
    refine .inr ⟨fun r hr => ?_, rfl, by simp [lookupOp, h]⟩
    simpa using List.find?_eq_none.mp h r hr

theorem assemble_mnemonic (mn : Mnemonic) (op a : Word) : (assemble mn op a).mnemonic = mn := by
  cases mn <;> rfl

/-- Everything the decoder answers on a list that is not empty. -/
theorem decode_cons (op : Word) (rest : List Word) :
    (∃ mn, lookupOp op = (mn, false) ∧ decode (op :: rest) = .ok (assemble mn op 0, rest)) ∨
    (∃ mn a rest', lookupOp op = (mn, true) ∧ rest = a :: rest' ∧ decode (op :: rest) = .ok (assemble mn op a, rest')) ∨
    (∃ mn, lookupOp op = (mn, true) ∧ rest = [] ∧ decode (op :: rest) = .error (.noOperandCell mn)) := by
  rcases h : lookupOp op with ⟨mn, _ | _⟩
  · exact .inl ⟨mn, rfl, by simp [decode, h]⟩
  · cases rest with
    | nil => exact .inr (.inr ⟨mn, rfl, rfl, by simp [decode, h]⟩)
    | cons a rest' => exact .inr (.inl ⟨mn, a, rest', rfl, rfl, by simp [decode, h]⟩)

/-- The opcode cell decides the length: two cells exactly when the lookup says it consumes the next cell. -/
theorem assemble_length (op a : Word) :
    (assemble (lookupOp op).1 op a).length = if (lookupOp op).2 then 2 else 1 := by
  rcases lookupOp_cases op with ⟨r, hr, _, _, hl⟩ | ⟨_, _, hl⟩
  · rw [hl]
    fin_cases hr <;> rfl
  · rw [hl]
    rfl

/-- The value a lookup's row has is the cell: the cell is the row's word. -/
theorem word_of_row (op : Word) (r : OpRow) (h : r.value = op.toInt) : op = BitVec.ofInt Config.W r.value := by
  rw [h, BitVec.ofInt_toInt]

/-- The only cell that looks up as STA. -/
theorem lookupOp_eq_sta (op : Word) (h : (lookupOp op).1 = .sta) : op = 0x10 := by
  rcases lookupOp_cases op with ⟨q, hq, hv, _, hl⟩ | ⟨_, _, hl⟩
  · have hop := word_of_row op q hv
    rw [hl] at h
    fin_cases hq <;> cases h
    exact hop
  · rw [hl] at h
    cases h

/-- The only cell that looks up as HLT. -/
theorem lookupOp_eq_hlt (op : Word) (h : (lookupOp op).1 = .hlt) : op = 0xF0 := by
  rcases lookupOp_cases op with ⟨q, hq, hv, _, hl⟩ | ⟨_, _, hl⟩
  · have hop := word_of_row op q hv
    rw [hl] at h
    fin_cases hq <;> cases h
    exact hop
  · rw [hl] at h
    cases h

end Sys2Proof
end

