-- ==== Sys2Proof/Laws/State.lean ====
section
/-! SUPPORT. One lemma per field per update of State, true by definition, so that no proof unfolds a record update. -/

namespace Sys2Proof.Machine

variable (s : State)

@[simp] theorem State.writeMem_mem (a : Addr) (v : Word) : (s.writeMem a v).mem = s.mem.write a v := rfl
@[simp] theorem State.writeMem_acc (a : Addr) (v : Word) : (s.writeMem a v).acc = s.acc := rfl
@[simp] theorem State.writeMem_pc (a : Addr) (v : Word) : (s.writeMem a v).pc = s.pc := rfl
@[simp] theorem State.writeMem_steps (a : Addr) (v : Word) : (s.writeMem a v).steps = s.steps := rfl
@[simp] theorem State.writeMem_halted (a : Addr) (v : Word) : (s.writeMem a v).halted = s.halted := rfl
@[simp] theorem State.writeMem_fault (a : Addr) (v : Word) : (s.writeMem a v).fault = s.fault := rfl

@[simp] theorem State.setAcc_mem (v : Word) : (s.setAcc v).mem = s.mem := rfl
@[simp] theorem State.setAcc_acc (v : Word) : (s.setAcc v).acc = v := rfl
@[simp] theorem State.setAcc_pc (v : Word) : (s.setAcc v).pc = s.pc := rfl
@[simp] theorem State.setAcc_steps (v : Word) : (s.setAcc v).steps = s.steps := rfl
@[simp] theorem State.setAcc_halted (v : Word) : (s.setAcc v).halted = s.halted := rfl
@[simp] theorem State.setAcc_fault (v : Word) : (s.setAcc v).fault = s.fault := rfl

@[simp] theorem State.setPc_mem (v : Word) : (s.setPc v).mem = s.mem := rfl
@[simp] theorem State.setPc_acc (v : Word) : (s.setPc v).acc = s.acc := rfl
@[simp] theorem State.setPc_pc (v : Word) : (s.setPc v).pc = v := rfl
@[simp] theorem State.setPc_steps (v : Word) : (s.setPc v).steps = s.steps := rfl
@[simp] theorem State.setPc_halted (v : Word) : (s.setPc v).halted = s.halted := rfl
@[simp] theorem State.setPc_fault (v : Word) : (s.setPc v).fault = s.fault := rfl

@[simp] theorem State.advancePc_mem : (s.advancePc).mem = s.mem := rfl
@[simp] theorem State.advancePc_acc : (s.advancePc).acc = s.acc := rfl
@[simp] theorem State.advancePc_pc : (s.advancePc).pc = s.pc + 1 := rfl
@[simp] theorem State.advancePc_steps : (s.advancePc).steps = s.steps := rfl
@[simp] theorem State.advancePc_halted : (s.advancePc).halted = s.halted := rfl
@[simp] theorem State.advancePc_fault : (s.advancePc).fault = s.fault := rfl

@[simp] theorem State.countStep_mem : (s.countStep).mem = s.mem := rfl
@[simp] theorem State.countStep_acc : (s.countStep).acc = s.acc := rfl
@[simp] theorem State.countStep_pc : (s.countStep).pc = s.pc := rfl
@[simp] theorem State.countStep_steps : (s.countStep).steps = s.steps + 1 := rfl
@[simp] theorem State.countStep_halted : (s.countStep).halted = s.halted := rfl
@[simp] theorem State.countStep_fault : (s.countStep).fault = s.fault := rfl

@[simp] theorem State.setHalted_mem : (s.setHalted).mem = s.mem := rfl
@[simp] theorem State.setHalted_acc : (s.setHalted).acc = s.acc := rfl
@[simp] theorem State.setHalted_pc : (s.setHalted).pc = s.pc := rfl
@[simp] theorem State.setHalted_steps : (s.setHalted).steps = s.steps := rfl
@[simp] theorem State.setHalted_halted : (s.setHalted).halted = true := rfl
@[simp] theorem State.setHalted_fault : (s.setHalted).fault = s.fault := rfl

@[simp] theorem State.raise_mem (c : FaultCause) (mn : Option Mnemonic) (a : Word) : (s.raise c mn a).mem = s.mem := rfl
@[simp] theorem State.raise_acc (c : FaultCause) (mn : Option Mnemonic) (a : Word) : (s.raise c mn a).acc = s.acc := rfl
@[simp] theorem State.raise_pc (c : FaultCause) (mn : Option Mnemonic) (a : Word) : (s.raise c mn a).pc = s.pc := rfl
@[simp] theorem State.raise_steps (c : FaultCause) (mn : Option Mnemonic) (a : Word) : (s.raise c mn a).steps = s.steps := rfl
@[simp] theorem State.raise_halted (c : FaultCause) (mn : Option Mnemonic) (a : Word) : (s.raise c mn a).halted = s.halted := rfl
@[simp] theorem State.raise_fault (c : FaultCause) (mn : Option Mnemonic) (a : Word) : (s.raise c mn a).fault = some ⟨c, mn, a⟩ := rfl

end Sys2Proof.Machine
end

