-- ==== Sys2Proof/Laws/Word.lean ====
section
/-! SUPPORT. Words as signed integers, the bounds checker and `wrap_W` (00_scope.md rule R7, 20_memory.md rule R35). -/

namespace Sys2Proof.Machine

/-- The constraint on `W` (rule R3): the largest opcode value and 0xFF are non-negative cell values. -/
theorem Config.W_ge_nine : 9 ≤ Config.W := by decide

/-- The bounds checker answers a cell exactly when the word is its address. -/
theorem boundsCheck_eq_some (v : Word) (p : Addr) : boundsCheck v = some p ↔ v.toInt = p.val := by
  unfold boundsCheck
  split
  · rename_i h
    rw [Option.some_inj, Fin.ext_iff]
    show v.toInt.toNat = p.val ↔ _
    omega
  · rename_i h
    have := p.isLt
    simp only [reduceCtorEq, false_iff]
    omega

/-- The bounds checker fails exactly outside `[0, 7]`. -/
theorem boundsCheck_eq_none (v : Word) : boundsCheck v = none ↔ v.toInt < 0 ∨ 8 ≤ v.toInt := by
  have h8 : (Config.memSize : Int) = 8 := rfl
  unfold boundsCheck
  split <;> simp only [reduceCtorEq, false_iff, true_iff] <;> omega

/-- An address is at most 7. -/
theorem addr_lt (p : Addr) : p.val < 8 := p.isLt

theorem boundsCheck_of_toInt (v : Word) (p : Addr) (h : v.toInt = p.val) : boundsCheck v = some p :=
  (boundsCheck_eq_some v p).mpr h

/-- A word is the word of its integer: the address a word holds determines the word. -/
theorem word_of_toInt (v : Word) (n : Nat) (h : v.toInt = n) : v = BitVec.ofNat Config.W n := by
  rw [← BitVec.ofInt_toInt (x := v), h]
  rfl

/-- A small advance does not wrap. -/
theorem toInt_add_one (v : Word) (n : Nat) (h : v.toInt = n) (hn : n ≤ 100) : (v + 1).toInt = n + 1 := by
  rw [BitVec.toInt_add, h, (by decide : (1 : Word).toInt = 1), Int.bmod_def]
  norm_num
  omega

/-- What `wrap_W` is as an integer. -/
theorem wrapW_toInt (v : Int) : (wrapW v).toInt = v.bmod (2 ^ Config.W) := by
  simp [wrapW, BitVec.toInt_ofInt]

/-- `wrap_W` of a value in range is that value. -/
theorem wrapW_of_inRange (v : Int) (hl : intMin ≤ v) (hh : v ≤ intMax) : (wrapW v).toInt = v := by
  rw [wrapW_toInt, Int.bmod_def]
  simp only [intMin, intMax] at hl hh
  norm_num at *
  omega

end Sys2Proof.Machine
end

