-- ==== Sys2Proof/Laws/Exec.lean ====
section
/-! SUPPORT. Everything an operand operation and a meaning can do, said once (40_step_cycle.md rules R77 to R80). -/

namespace Sys2Proof.Machine

/-- Everything the target check S7 does. -/
theorem checkTarget_cases (mn : Mnemonic) (a : Word) (s : State) :
    (∃ p : Addr, a.toInt = p.val ∧ checkTarget mn a s = .ok p) ∨
    (outside a ∧ checkTarget mn a s = .error (s.raise .targetOutOfRange (some mn) a)) := by
  cases h : boundsCheck a with
  | some p => exact .inl ⟨p, (boundsCheck_eq_some a p).mp h, by simp [checkTarget, h]⟩
  | none => exact .inr ⟨(boundsCheck_eq_none a).mp h, by simp [checkTarget, h]⟩

/-- Everything the unchecked read of ADD and SUB does. -/
theorem readUnchecked_cases (mn : Mnemonic) (a : Word) (s : State) :
    (∃ p : Addr, a.toInt = p.val ∧ readUnchecked mn a s = .ok (s.mem.read p)) ∨
    (outside a ∧ readUnchecked mn a s = .error (s.raise .undefinedOperandRead (some mn) a)) := by
  cases h : boundsCheck a with
  | some p => exact .inl ⟨p, (boundsCheck_eq_some a p).mp h, by simp [readUnchecked, h]⟩
  | none => exact .inr ⟨(boundsCheck_eq_none a).mp h, by simp [readUnchecked, h]⟩

/-- Everything the operand fetch S6 does from an opcode cell `p`: the cell after it, or, at address 7, the overflow. -/
theorem fetchOperand_cases (mn : Mnemonic) (s : State) (p : Addr) (hp : s.pc.toInt = p.val) :
    (∃ q : Addr, q.val = p.val + 1 ∧ s.advancePc.pc.toInt = q.val ∧
      fetchOperand mn s = .ok (s.mem.read q, s.advancePc)) ∨
    (p = 7 ∧ s.advancePc.pc = 8 ∧
      fetchOperand mn s = .error (s.advancePc.raise .pcOverflowDuringFetch (some mn) s.advancePc.pc)) := by
  have hlt := addr_lt p
  have hadv : s.advancePc.pc.toInt = p.val + 1 := toInt_add_one s.pc p.val hp (by omega)
  by_cases h7 : p.val = 7
  · refine .inr ⟨Fin.ext h7, word_of_toInt _ 8 (by omega), ?_⟩
    simp only [fetchOperand, (boundsCheck_eq_none s.advancePc.pc).mpr (by omega)]
  · obtain ⟨q, hq⟩ : ∃ q : Addr, q.val = p.val + 1 := ⟨⟨p.val + 1, show p.val + 1 < 8 by omega⟩, rfl⟩
    have hb : s.advancePc.pc.toInt = q.val := by omega
    exact .inl ⟨q, hq, hb, by simp only [fetchOperand, boundsCheck_of_toInt _ _ hb]⟩

/-- The next states a meaning can give, one constructor per kind of effect. -/
inductive ExecEffect (s : State) : Instr → State → Prop where
  | noOp (i : Instr) (h : i.mnemonic ∉ [.sta, .lda, .add, .sub, .jmp, .hlt]) : ExecEffect s i s.advancePc
  | hlt : ExecEffect s .hlt s.setHalted.advancePc
  | sta (a : Word) (p : Addr) (h : a.toInt = p.val) : ExecEffect s (.sta a) (s.writeMem p s.acc).advancePc
  | lda (a : Word) (p : Addr) (h : a.toInt = p.val) : ExecEffect s (.lda a) (s.setAcc (s.mem.read p)).advancePc
  | add (a : Word) (p : Addr) (h : a.toInt = p.val) :
      ExecEffect s (.add a) (s.setAcc (wrapW (s.acc.toInt + (s.mem.read p).toInt))).advancePc
  | sub (a : Word) (p : Addr) (h : a.toInt = p.val) :
      ExecEffect s (.sub a) (s.setAcc (wrapW (s.acc.toInt - (s.mem.read p).toInt))).advancePc
  | jmp (a : Word) (p : Addr) (h : a.toInt = p.val) : ExecEffect s (.jmp a) (s.setPc a)
  | target (i : Instr) (a : Word) (h : i ∈ [Instr.sta a, .lda a, .jmp a]) (ho : outside a) :
      ExecEffect s i (s.raise .targetOutOfRange (some i.mnemonic) a)
  | undefined (i : Instr) (a : Word) (h : i ∈ [Instr.add a, .sub a]) (ho : outside a) :
      ExecEffect s i (s.raise .undefinedOperandRead (some i.mnemonic) a)

theorem execSta_effect (a : Word) (s : State) : ∃ t, execSta a s = .next t ∧ ExecEffect s (.sta a) t := by
  rcases checkTarget_cases .sta a s with ⟨p, hp, h⟩ | ⟨ho, h⟩
  · exact ⟨_, by simp only [execSta, h], .sta a p hp⟩
  · exact ⟨_, by simp only [execSta, h]; rfl, .target (.sta a) a (by simp) ho⟩

theorem execLda_effect (a : Word) (s : State) : ∃ t, execLda a s = .next t ∧ ExecEffect s (.lda a) t := by
  rcases checkTarget_cases .lda a s with ⟨p, hp, h⟩ | ⟨ho, h⟩
  · exact ⟨_, by simp only [execLda, h], .lda a p hp⟩
  · exact ⟨_, by simp only [execLda, h]; rfl, .target (.lda a) a (by simp) ho⟩

theorem execJmp_effect (a : Word) (s : State) : ∃ t, execJmp a s = .next t ∧ ExecEffect s (.jmp a) t := by
  rcases checkTarget_cases .jmp a s with ⟨p, hp, h⟩ | ⟨ho, h⟩
  · exact ⟨_, by simp only [execJmp, h], .jmp a p hp⟩
  · exact ⟨_, by simp only [execJmp, h]; rfl, .target (.jmp a) a (by simp) ho⟩

theorem execAdd_effect (a : Word) (s : State) : ∃ t, execAdd a s = .next t ∧ ExecEffect s (.add a) t := by
  rcases readUnchecked_cases .add a s with ⟨p, hp, h⟩ | ⟨ho, h⟩
  · exact ⟨_, by simp only [execAdd, h], .add a p hp⟩
  · exact ⟨_, by simp only [execAdd, h]; rfl, .undefined (.add a) a (by simp) ho⟩

theorem execSub_effect (a : Word) (s : State) : ∃ t, execSub a s = .next t ∧ ExecEffect s (.sub a) t := by
  rcases readUnchecked_cases .sub a s with ⟨p, hp, h⟩ | ⟨ho, h⟩
  · exact ⟨_, by simp only [execSub, h], .sub a p hp⟩
  · exact ⟨_, by simp only [execSub, h]; rfl, .undefined (.sub a) a (by simp) ho⟩

/-- Every meaning answers a next state, and it is one of the effects above. -/
theorem exec_effect (i : Instr) (s : State) : ∃ t, exec i s = .next t ∧ ExecEffect s i t := by
  cases i with
  | sta a => exact execSta_effect a s
  | lda a => exact execLda_effect a s
  | add a => exact execAdd_effect a s
  | sub a => exact execSub_effect a s
  | jmp a => exact execJmp_effect a s
  | hlt => exact ⟨_, rfl, .hlt⟩
  | _ => exact ⟨_, rfl, .noOp _ (by simp [Instr.mnemonic])⟩

/-- The inversion of a meaning: a next state it answers is one of the effects. -/
theorem effect_of_exec (i : Instr) (s t : State) (h : exec i s = .next t) : ExecEffect s i t := by
  obtain ⟨u, hu, he⟩ := exec_effect i s
  rw [hu] at h
  cases h
  exact he

/-- The table's "consumes next cell" column is the list of the seventeen mnemonics. -/
theorem consumesOperand_lookupOp (op : Word) : (lookupOp op).1.consumesOperand = (lookupOp op).2 := by
  rcases lookupOp_cases op with ⟨q, hq, _, _, hl⟩ | ⟨_, _, hl⟩
  · rw [hl]
    fin_cases hq <;> rfl
  · rw [hl]
    rfl

/-- The effects of a one-cell opcode: HLT's, or nothing but the final advance. -/
theorem oneCell_effect (s t : State) (op : Word) (mn : Mnemonic) (hl : lookupOp op = (mn, false))
    (h : ExecEffect s (assemble mn op 0) t) :
    (mn = .hlt ∧ t = s.setHalted.advancePc) ∨ (mn ≠ .hlt ∧ t = s.advancePc) := by
  rcases lookupOp_cases op with ⟨q, hq, _, _, hl2⟩ | ⟨_, _, hl2⟩
  · rw [hl] at hl2
    fin_cases hq <;> cases hl2 <;> simp only [assemble] at h <;> cases h <;> simp_all [Instr.mnemonic]
  · rw [hl] at hl2
    cases hl2
    simp only [assemble] at h
    cases h <;> simp_all

/-- No meaning changes the step count. -/
theorem ExecEffect.steps_eq {s t : State} {i : Instr} (h : ExecEffect s i t) : t.steps = s.steps := by
  cases h <;> simp

/-- The flag `halted` changes in HLT alone. -/
theorem ExecEffect.halted_eq {s t : State} {i : Instr} (h : ExecEffect s i t) :
    t.halted = s.halted ∨ (i = .hlt ∧ t = s.setHalted.advancePc) := by
  cases h <;> simp

/-- The latch changes only where a meaning raises one of the two causes of stages S7 and S8, and then nothing else
does. -/
theorem ExecEffect.fault_cases {s t : State} {i : Instr} (h : ExecEffect s i t) :
    t.fault = s.fault ∨ ∃ c a, t = s.raise c (some i.mnemonic) a ∧ outside a ∧
      ((c = .targetOutOfRange ∧ i.mnemonic.checksTarget = true) ∨
       (c = .undefinedOperandRead ∧ i.mnemonic.readsUnchecked = true)) := by
  cases h with
  | target _ a hi ho =>
    simp only [List.mem_cons, List.mem_nil_iff, or_false] at hi
    exact .inr ⟨_, a, rfl, ho, .inl ⟨rfl, by rcases hi with rfl | rfl | rfl <;> rfl⟩⟩
  | undefined _ a hi ho =>
    simp only [List.mem_cons, List.mem_nil_iff, or_false] at hi
    exact .inr ⟨_, a, rfl, ho, .inr ⟨rfl, by rcases hi with rfl | rfl <;> rfl⟩⟩
  | _ => exact .inl (by simp)

end Sys2Proof.Machine
end

