-- ==== Sys2Proof/Laws/Memory.lean ====
section
/-! SUPPORT. The laws of memory: a read after a write (20_memory.md rules R33, R34), and that every operation keeps the
canonical form. -/

namespace Sys2Proof.Machine

/-- The canonical form, as a proposition: addresses strictly rising and no entry that an unlisted cell reads as. -/
theorem Memory.wf_iff (m : Memory) :
    m.wf = true ↔ m.Pairwise (fun p q => p.1 < q.1) ∧ ∀ p ∈ m, p.2 ≠ Memory.unlisted := by
  induction m with
  | nil => simp [Memory.wf]
  | cons q m ih =>
    obtain ⟨a, v⟩ := q
    simp only [Memory.wf, Bool.and_eq_true, bne_iff_ne, List.all_eq_true, decide_eq_true_eq, ih, List.pairwise_cons,
      List.forall_mem_cons]
    tauto

theorem Memory.read_insert_same (m : Memory) (a : Addr) (v : Word) (h : ∀ p ∈ m, p.1 ≠ a) :
    (m.insert a v).read a = v := by
  induction m with
  | nil => simp [Memory.insert, Memory.read]
  | cons p m ih =>
    obtain ⟨b, w⟩ := p
    have hb : b ≠ a := h (b, w) (by simp)
    have hm := ih (fun p hp => h p (by simp [hp]))
    by_cases hlt : a < b <;> simp [Memory.insert, Memory.read, hlt, hb, hm]

theorem Memory.read_insert_other (m : Memory) (a b : Addr) (v : Word) (h : b ≠ a) :
    (m.insert a v).read b = m.read b := by
  induction m with
  | nil => simp [Memory.insert, Memory.read, Ne.symm h]
  | cons p m ih =>
    obtain ⟨c, w⟩ := p
    by_cases hlt : a < c <;> simp [Memory.insert, Memory.read, hlt, Ne.symm h, ih]

theorem Memory.read_erase_same (m : Memory) (a : Addr) : (m.erase a).read a = Memory.unlisted := by
  induction m with
  | nil => rfl
  | cons p m ih =>
    obtain ⟨b, w⟩ := p
    by_cases hb : b = a <;> simp_all [Memory.erase, Memory.read]

theorem Memory.read_erase_other (m : Memory) (a b : Addr) (h : b ≠ a) : (m.erase a).read b = m.read b := by
  induction m with
  | nil => rfl
  | cons p m ih =>
    obtain ⟨c, w⟩ := p
    by_cases hc : c = a
    · subst hc
      simpa [Memory.erase, Memory.read, Ne.symm h] using ih
    · by_cases hb : c = b <;> simp_all [Memory.erase, Memory.read]

theorem Memory.not_mem_erase (m : Memory) (a : Addr) : ∀ p ∈ m.erase a, p.1 ≠ a := by
  simp [Memory.erase]

/-- Everything a read after a write answers. -/
theorem Memory.read_write (m : Memory) (a b : Addr) (v : Word) :
    (m.write a v).read b = if b = a then v else m.read b := by
  by_cases hv : v = Memory.unlisted
  · by_cases hb : b = a
    · simp [Memory.write, hv, hb, Memory.read_erase_same]
    · simp [Memory.write, hv, hb, Memory.read_erase_other]
  · by_cases hb : b = a
    · simp [Memory.write, hv, hb, Memory.read_insert_same _ _ _ (Memory.not_mem_erase m a)]
    · simp [Memory.write, hv, hb, Memory.read_insert_other, Memory.read_erase_other]

theorem Memory.mem_insert (m : Memory) (a : Addr) (v : Word) (p : Addr × Word) (h : p ∈ m.insert a v) :
    p = (a, v) ∨ p ∈ m := by
  induction m with
  | nil => simpa [Memory.insert] using h
  | cons q m ih =>
    obtain ⟨b, w⟩ := q
    by_cases hlt : a < b
    · simpa [Memory.insert, hlt] using h
    · rcases (by simpa [Memory.insert, hlt] using h : p = (b, w) ∨ p ∈ Memory.insert m a v) with h | h
      · exact .inr (by simp [h])
      · rcases ih h with h | h
        · exact .inl h
        · exact .inr (by simp [h])

theorem Memory.erase_wf (m : Memory) (a : Addr) (h : m.wf = true) : (m.erase a).wf = true :=
  have h := (Memory.wf_iff m).mp h
  (Memory.wf_iff _).mpr ⟨h.1.filter _, fun p hp => h.2 p (List.mem_of_mem_filter hp)⟩

theorem Memory.insert_wf (m : Memory) (a : Addr) (v : Word) (h : m.wf = true) (ha : ∀ p ∈ m, p.1 ≠ a)
    (hv : v ≠ Memory.unlisted) : (m.insert a v).wf = true := by
  rw [Memory.wf_iff] at h ⊢
  refine ⟨?_, fun p hp => ?_⟩
  · induction m with
    | nil => simp [Memory.insert]
    | cons q m ih =>
      obtain ⟨b, w⟩ := q
      obtain ⟨hb, hm⟩ := List.pairwise_cons.mp h.1
      have hne : b ≠ a := ha (b, w) (by simp)
      by_cases hlt : a < b
      · simp only [Memory.insert, hlt, if_true]
        refine List.pairwise_cons.mpr ⟨fun p hp => ?_, h.1⟩
        rcases List.mem_cons.mp hp with rfl | hp
        · exact hlt
        · exact lt_trans hlt (hb p hp)
      · simp only [Memory.insert, hlt, if_false]
        refine List.pairwise_cons.mpr ⟨fun p hp => ?_, ?_⟩
        · rcases Memory.mem_insert m a v p hp with rfl | hp
          · exact lt_of_le_of_ne (not_lt.mp hlt) hne
          · exact hb p hp
        · exact ih ⟨hm, fun p hp => h.2 p (by simp [hp])⟩ (fun p hp => ha p (by simp [hp]))
  · rcases Memory.mem_insert m a v p hp with rfl | hp
    · exact hv
    · exact h.2 p hp

/-- A write keeps the canonical form. -/
theorem Memory.write_wf (m : Memory) (a : Addr) (v : Word) (h : m.wf = true) : (m.write a v).wf = true := by
  by_cases hv : v = Memory.unlisted
  · simpa only [Memory.write, hv, if_true] using Memory.erase_wf m a h
  · simpa only [Memory.write, hv, if_false] using
      Memory.insert_wf _ a v (Memory.erase_wf m a h) (Memory.not_mem_erase m a) hv

theorem Memory.empty_wf : Memory.wf [] = true := rfl

/-- The reset memory has the canonical form. -/
theorem State.reset_memory_wf : State.reset.mem.wf = true := Memory.empty_wf

/-- A memory that lists no entry at an address reads there as an unlisted cell. -/
theorem Memory.read_of_not_listed (m : Memory) (a : Addr) (h : ∀ p ∈ m, p.1 ≠ a) : m.read a = Memory.unlisted := by
  induction m with
  | nil => rfl
  | cons p m ih =>
    have hp : p.1 ≠ a := h p (by simp)
    have hm := ih (fun q hq => h q (by simp [hq]))
    simp [Memory.read, hp, hm]

/-- In canonical form, an entry is what its address reads as. -/
theorem Memory.read_of_listed (m : Memory) (h : m.Pairwise (fun p q => p.1 < q.1)) (p : Addr × Word) (hp : p ∈ m) :
    m.read p.1 = p.2 := by
  induction m with
  | nil => simp at hp
  | cons q m ih =>
    obtain ⟨hq, hm⟩ := List.pairwise_cons.mp h
    rcases List.mem_cons.mp hp with rfl | hp
    · simp [Memory.read]
    · have := hq p hp
      simp [Memory.read, this.ne, ih hm hp]

theorem addr_cases (p : Addr) : p = 0 ∨ p = 1 ∨ p = 2 ∨ p = 3 ∨ p = 4 ∨ p = 5 ∨ p = 6 ∨ p = 7 := by
  revert p
  decide

/-- The cells from an address on begin with that address's cell. -/
theorem Memory.drop_cells (m : Memory) (p : Addr) : m.cells.drop p.val = m.read p :: m.cells.drop (p.val + 1) := by
  rcases addr_cases p with h | h | h | h | h | h | h | h <;> subst h <;> rfl

theorem Memory.cells_length (m : Memory) : m.cells.length = 8 := rfl

end Sys2Proof.Machine
end

