-- ==== Sys2Proof/Laws/Step.lean ====
section
/-! SUPPORT. Everything one step can do, said once: the stages S0 to S6 and the run of the fetched instruction
(40_step_cycle.md rules R70 to R77). -/

namespace Sys2Proof.Machine

/-- The ways a step can go, one constructor per way. The `Answer` is what `step` gives. -/
inductive StepCase (s : State) : Answer → Prop where
  | faulted (r : FaultRecord) (hf : s.fault = some r) : StepCase s (.fault (.latched r))
  | warned (hf : s.fault = none) (hh : s.halted = true) : StepCase s (.next s)
  | outOfBounds (hr : s.running) (ho : outside s.pc) : StepCase s (.next (s.raise .pcOutOfBounds none s.pc))
  | overflow (hr : s.running) (hp : s.pc.toInt = 7) (mn : Mnemonic) (hl : lookupOp (s.mem.read 7) = (mn, true)) :
      StepCase s (.next (s.countStep.advancePc.raise .pcOverflowDuringFetch (some mn) 8))
  | oneCell (hr : s.running) (p : Addr) (hp : s.pc.toInt = p.val) (mn : Mnemonic)
      (hl : lookupOp (s.mem.read p) = (mn, false)) :
      StepCase s (exec (assemble mn (s.mem.read p) 0) s.countStep)
  | twoCells (hr : s.running) (p q : Addr) (hp : s.pc.toInt = p.val) (hq : q.val = p.val + 1) (mn : Mnemonic)
      (hl : lookupOp (s.mem.read p) = (mn, true)) :
      StepCase s (exec (assemble mn (s.mem.read p) (s.mem.read q)) s.countStep.advancePc)

/-- Every step goes one of these ways. -/
theorem step_case (s : State) : StepCase s (step s) := by
  rcases hf : s.fault with _ | r
  · rcases hh : s.halted with _ | _
    · have hr : s.running := ⟨hh, hf⟩
      rcases hb : boundsCheck s.pc with _ | p
      · have h : step s = .next (s.raise .pcOutOfBounds none s.pc) := by simp [step, prepare, hf, hh, hb]
        rw [h]
        exact .outOfBounds hr ((boundsCheck_eq_none _).mp hb)
      · have hp := (boundsCheck_eq_some _ _).mp hb
        rcases hl : lookupOp (s.mem.read p) with ⟨mn, _ | _⟩
        · have h : step s = exec (assemble mn (s.mem.read p) 0) s.countStep := by
            simp [step, prepare, fetchDecode, hf, hh, hb, hl]
          rw [h]
          exact .oneCell hr p hp mn hl
        · rcases fetchOperand_cases mn s.countStep p hp with ⟨q, hq, _, ho⟩ | ⟨h7, h8, ho⟩
          · have h : step s = exec (assemble mn (s.mem.read p) (s.mem.read q)) s.countStep.advancePc := by
              simp [step, prepare, fetchDecode, hf, hh, hb, hl, ho]
            rw [h]
            exact .twoCells hr p q hp hq mn hl
          · have h : step s = .next (s.countStep.advancePc.raise .pcOverflowDuringFetch (some mn) 8) := by
              simp only [step, prepare, fetchDecode, hf, hh, hb, hl, ho, State.countStep_mem, h8]
              rfl
            rw [h]
            subst h7
            exact .overflow hr hp mn hl
    · have h : step s = .next s := by simp [step, prepare, hf, hh]
      rw [h]
      exact .warned hf hh
  · have h : step s = .fault (.latched r) := by simp [step, prepare, hf]
    rw [h]
    exact .faulted r hf

/-- A step of a RUNNING machine on a one-cell opcode. -/
theorem step_oneCell (s : State) (hr : s.running) (p : Addr) (hp : s.pc.toInt = p.val) (mn : Mnemonic)
    (hl : lookupOp (s.mem.read p) = (mn, false)) : step s = exec (assemble mn (s.mem.read p) 0) s.countStep := by
  simp [step, prepare, fetchDecode, hr.1, hr.2, boundsCheck_of_toInt _ _ hp, hl]

/-- A step of a RUNNING machine on a two-cell opcode with a cell after it. -/
theorem step_twoCells (s : State) (hr : s.running) (p q : Addr) (hp : s.pc.toInt = p.val) (hq : q.val = p.val + 1)
    (mn : Mnemonic) (hl : lookupOp (s.mem.read p) = (mn, true)) :
    step s = exec (assemble mn (s.mem.read p) (s.mem.read q)) s.countStep.advancePc := by
  rcases fetchOperand_cases mn s.countStep p hp with ⟨q', hq', _, ho⟩ | ⟨h7, _, _⟩
  · obtain rfl : q = q' := Fin.ext (by omega)
    simp [step, prepare, fetchDecode, hr.1, hr.2, boundsCheck_of_toInt _ _ hp, hl, ho]
  · have := addr_lt q
    subst h7
    have : (7 : Addr).val = 7 := rfl
    omega

/-- A step of a RUNNING machine on an operand-consuming opcode at address 7. -/
theorem step_overflow (s : State) (hr : s.running) (hp : s.pc = 7) (mn : Mnemonic)
    (hl : lookupOp (s.mem.read 7) = (mn, true)) :
    step s = .next (s.countStep.advancePc.raise .pcOverflowDuringFetch (some mn) 8) := by
  have hp' : s.pc.toInt = (7 : Addr).val := by
    rw [hp]
    rfl
  rcases fetchOperand_cases mn s.countStep 7 hp' with ⟨q, hq, _, _⟩ | ⟨_, h8, ho⟩
  · have := addr_lt q
    have : (7 : Addr).val = 7 := rfl
    omega
  · simp only [step, prepare, fetchDecode, hr.1, hr.2, boundsCheck_of_toInt _ _ hp', hl, ho, State.countStep_mem, h8]
    rfl

/-- A step of a machine that fetches a one-cell opcode. -/
theorem step_of_fetchesOpcode (s : State) (op : Word) (mn : Mnemonic) (hf : s.fetchesOpcode op)
    (hl : lookupOp op = (mn, false)) : step s = exec (assemble mn op 0) s.countStep := by
  obtain ⟨hr, p, hp, rfl⟩ := hf
  exact step_oneCell s hr p hp mn hl

/-- A step of a machine that fetches a two-cell opcode and its operand. -/
theorem step_of_fetchesPair (s : State) (op a : Word) (mn : Mnemonic) (hf : s.fetchesPair op a)
    (hl : lookupOp op = (mn, true)) : step s = exec (assemble mn op a) s.countStep.advancePc := by
  obtain ⟨hr, p, q, hp, hq, rfl, rfl⟩ := hf
  exact step_twoCells s hr p q hp hq mn hl

/-- The ways a step can give a next state, one constructor per way: the inversion of `step`. -/
inductive NextCase (s : State) : State → Prop where
  | warned (hf : s.fault = none) (hh : s.halted = true) : NextCase s s
  | outOfBounds (hr : s.running) (ho : outside s.pc) : NextCase s (s.raise .pcOutOfBounds none s.pc)
  | overflow (hr : s.running) (hp : s.pc = 7) (mn : Mnemonic) (hl : lookupOp (s.mem.read 7) = (mn, true)) :
      NextCase s (s.countStep.advancePc.raise .pcOverflowDuringFetch (some mn) 8)
  | oneCell (t : State) (hr : s.running) (p : Addr) (hp : s.pc.toInt = p.val) (mn : Mnemonic)
      (hl : lookupOp (s.mem.read p) = (mn, false)) (he : ExecEffect s.countStep (assemble mn (s.mem.read p) 0) t) :
      NextCase s t
  | twoCells (t : State) (hr : s.running) (p q : Addr) (hp : s.pc.toInt = p.val) (hq : q.val = p.val + 1)
      (mn : Mnemonic) (hl : lookupOp (s.mem.read p) = (mn, true)) (i : Instr)
      (hi : assemble mn (s.mem.read p) (s.mem.read q) = i) (hm : i.mnemonic = mn)
      (he : ExecEffect s.countStep.advancePc i t) : NextCase s t

/-- A next state of a step comes about in one of these ways. -/
theorem next_case (s t : State) (h : step s = .next t) : NextCase s t := by
  have key : ∀ a, StepCase s a → a = .next t → NextCase s t := by
    intro a hc ha
    cases hc with
    | faulted r hf => cases ha
    | warned hf hh =>
      cases ha
      exact .warned hf hh
    | outOfBounds hr ho =>
      cases ha
      exact .outOfBounds hr ho
    | overflow hr hp mn hl =>
      cases ha
      exact .overflow hr (word_of_toInt _ 7 hp) mn hl
    | oneCell hr p hp mn hl => exact .oneCell t hr p hp mn hl (effect_of_exec _ _ _ ha)
    | twoCells hr p q hp hq mn hl =>
      exact .twoCells t hr p q hp hq mn hl _ rfl (assemble_mnemonic _ _ _) (effect_of_exec _ _ _ ha)
  exact key _ (step_case s) h

end Sys2Proof.Machine
end

