-- ==== Sys2Proof/Laws/Host.lean ====
section
/-! SUPPORT. The laws of the host's operations: `Load`, the image's memory, and a run split in two
(70_reset_and_hazards.md rules R181, R186). -/

namespace Sys2Proof.Machine

theorem inRange_iff (v : Int) : inRange v = true ↔ intMin ≤ v ∧ v ≤ intMax := by simp [inRange]

/-- What a cell of an image's memory reads as. -/
theorem Memory.read_ofImage (image : Vector Int Config.memSize) (a : Addr) :
    (Memory.ofImage image).read a = BitVec.ofInt Config.W (image.get a) := by
  simp only [Memory.ofImage, allAddrs, List.foldl, Memory.read_write]
  fin_cases a <;> rfl

/-- An image's memory has the canonical form. -/
theorem Memory.ofImage_wf (image : Vector Int Config.memSize) : (Memory.ofImage image).wf = true := by
  simp only [Memory.ofImage, allAddrs, List.foldl]
  repeat' apply Memory.write_wf
  exact Memory.empty_wf

theorem all_inRange_iff (image : Vector Int Config.memSize) :
    image.toList.all inRange = true ↔ ∀ i, intMin ≤ image.get i ∧ image.get i ≤ intMax := by
  rw [List.all_eq_true]
  constructor
  · intro h i
    exact (inRange_iff _).mp (h _ (by simp [Vector.get]))
  · intro h x hx
    obtain ⟨i, hi, rfl⟩ := List.getElem_of_mem hx
    simpa [inRange_iff, Vector.get] using h ⟨i, by simpa using hi⟩

/-- Everything `Load` does. -/
theorem State.load_eq (s : State) (image : Vector Int Config.memSize) (accInit : Int) :
    s.load image accInit =
      if (∀ i, intMin ≤ image.get i ∧ image.get i ≤ intMax) ∧ intMin ≤ accInit ∧ accInit ≤ intMax then
        some { s with mem := Memory.ofImage image, acc := BitVec.ofInt Config.W accInit }
      else none := by
  unfold State.load
  by_cases h : (image.toList.all inRange && inRange accInit) = true
  · rw [if_pos h]
    rw [Bool.and_eq_true, all_inRange_iff, inRange_iff] at h
    rw [if_pos h]
  · rw [if_neg h]
    rw [Bool.and_eq_true, all_inRange_iff, inRange_iff] at h
    rw [if_neg h]

/-- What a launch state is. -/
theorem State.launch_eq (s : State) (image : Vector Int Config.memSize) (accInit : Int)
    (h : s.launch image accInit) :
    s = { State.reset with mem := Memory.ofImage image, acc := BitVec.ofInt Config.W accInit } := by
  unfold State.launch at h
  rw [State.load_eq] at h
  split at h
  · simpa using h.symm
  · simp at h

/-- A run whose first step has a next state. -/
theorem run_succ (s t : State) (k : Nat) (h : step s = .next t) : core.run (k + 1) s = core.run k t := by
  simp only [Host.Core.run, core, h]

/-- The first step of a run that has one and ends at a state. -/
theorem run_succ_inv (s u : State) (k : Nat) (h : core.run (k + 1) s = .next u) :
    ∃ t, step s = .next t ∧ core.run k t = .next u := by
  simp only [Host.Core.run, core] at h
  cases hs : step s with
  | next t =>
    rw [hs] at h
    exact ⟨t, rfl, h⟩
  | fault r =>
    rw [hs] at h
    cases h
  | refused r =>
    rw [hs] at h
    cases h

/-- A run of `a + b` steps is a run of `b` steps from where `a` steps lead. -/
theorem run_add (a b : Nat) (x y : State) (h : core.run a x = .next y) : core.run (a + b) x = core.run b y := by
  induction a generalizing x with
  | zero =>
    cases h
    rw [Nat.zero_add]
  | succ a ih =>
    obtain ⟨z, hz, h'⟩ := run_succ_inv x y a h
    rw [Nat.succ_add, run_succ x z _ hz, ih z h']

/-- A run of one more step, at its end. -/
theorem reaches_succ (s t u : State) (k : Nat) (h : s.reaches k t) (hs : step t = .next u) : s.reaches (k + 1) u :=
  (run_add k 1 s t h).trans (run_succ t u 0 hs)

/-- The inversion of a run of one more step: the state before its last step. -/
theorem reaches_succ_inv (s u : State) (k : Nat) (h : s.reaches (k + 1) u) : ∃ t, s.reaches k t ∧ step t = .next u := by
  induction k generalizing s with
  | zero =>
    obtain ⟨t, ht, hu⟩ := run_succ_inv s u 0 h
    cases hu
    exact ⟨s, rfl, ht⟩
  | succ k ih =>
    obtain ⟨x, hx, h'⟩ := run_succ_inv s u (k + 1) h
    obtain ⟨t, ht, hu⟩ := ih x h'
    exact ⟨t, (run_succ s x k hx).trans ht, hu⟩

end Sys2Proof.Machine
end

