-- ==== Sys2Proof/Laws/PerInstr.lean ====
section
/-! SUPPORT. The family OpcodeCell of LAWS.json: the first cell of every well-formed instruction's encoding selects its
own mnemonic and length in the opcode table (30_encoding.md rules R53, R54). -/

namespace Sys2Proof.Laws

/-- The opcode cell of a well-formed instruction looks up as the instruction's mnemonic and length. -/
def OpcodeCell.Statement (i : Instr) : Prop :=
  i.wellFormed = true → lookupOp ((encode i).headD 0) = (i.mnemonic, i.length == 2)

theorem OpcodeCell.nop : OpcodeCell.Statement .nop := fun _ => rfl
theorem OpcodeCell.sta (a : Word) : OpcodeCell.Statement (.sta a) := fun _ => rfl
theorem OpcodeCell.lda (a : Word) : OpcodeCell.Statement (.lda a) := fun _ => rfl
theorem OpcodeCell.add (a : Word) : OpcodeCell.Statement (.add a) := fun _ => rfl
theorem OpcodeCell.or (a : Word) : OpcodeCell.Statement (.or a) := fun _ => rfl
theorem OpcodeCell.and (a : Word) : OpcodeCell.Statement (.and a) := fun _ => rfl
theorem OpcodeCell.not : OpcodeCell.Statement .not := fun _ => rfl
theorem OpcodeCell.sub (a : Word) : OpcodeCell.Statement (.sub a) := fun _ => rfl
theorem OpcodeCell.jmp (a : Word) : OpcodeCell.Statement (.jmp a) := fun _ => rfl
theorem OpcodeCell.jn (a : Word) : OpcodeCell.Statement (.jn a) := fun _ => rfl
theorem OpcodeCell.jp (a : Word) : OpcodeCell.Statement (.jp a) := fun _ => rfl
theorem OpcodeCell.jv (a : Word) : OpcodeCell.Statement (.jv a) := fun _ => rfl
theorem OpcodeCell.jnv (a : Word) : OpcodeCell.Statement (.jnv a) := fun _ => rfl
theorem OpcodeCell.jz (a : Word) : OpcodeCell.Statement (.jz a) := fun _ => rfl
theorem OpcodeCell.jnz (a : Word) : OpcodeCell.Statement (.jnz a) := fun _ => rfl
theorem OpcodeCell.jc (a : Word) : OpcodeCell.Statement (.jc a) := fun _ => rfl
theorem OpcodeCell.jnc (a : Word) : OpcodeCell.Statement (.jnc a) := fun _ => rfl
theorem OpcodeCell.jb (a : Word) : OpcodeCell.Statement (.jb a) := fun _ => rfl
theorem OpcodeCell.jnb (a : Word) : OpcodeCell.Statement (.jnb a) := fun _ => rfl
theorem OpcodeCell.shr : OpcodeCell.Statement .shr := fun _ => rfl
theorem OpcodeCell.shl : OpcodeCell.Statement .shl := fun _ => rfl
theorem OpcodeCell.ror : OpcodeCell.Statement .ror := fun _ => rfl
theorem OpcodeCell.rol : OpcodeCell.Statement .rol := fun _ => rfl
theorem OpcodeCell.hlt : OpcodeCell.Statement .hlt := fun _ => rfl
theorem OpcodeCell.unknown (v : Word) : OpcodeCell.Statement (.unknown v) := fun h => by
  have hv : tableRow v = none := by simpa [Instr.wellFormed] using h
  simp [encode, lookupOp, hv, Instr.mnemonic, Instr.length]

end Sys2Proof.Laws
end

