-- ==== Sys2Proof/Tests/Slice0.lean ====
section
/-! SUPPORT. The model's own tests. Expected results come from the spec: the encoding table of 30_encoding.md rule R54
and the vectors of 95_test_vectors.md (named V-...). The witnesses show, for each statement of Obligations.lean that has
hypotheses, a concrete state and operands that meet them, at boundary values. -/

namespace Sys2Proof.Tests

open Sys2Proof.Machine

/-- The memory of eight integers, in the notation of 95_test_vectors.md. -/
def mem8 (cells : List Int) : Memory :=
  (allAddrs.zip cells).foldl (fun m p => m.write p.1 (BitVec.ofInt Config.W p.2)) []

/-- A RUNNING state with the given cells, `acc`, `pc` and `steps`. -/
def st (cells : List Int) (acc : Int) (pc : Int) (steps : Nat := 0) : State :=
  ⟨mem8 cells, BitVec.ofInt Config.W acc, BitVec.ofInt Config.W pc, steps, false, none⟩

/-- The state after one step, if there is one. -/
def after (s : State) : Option State :=
  match step s with
  | .next t => some t
  | .fault _ => none
  | .refused _ => none

/-- The `acc`, `pc`, `steps`, `halted` and `fault` after one step. -/
def regs (s : State) : Option (Word × Word × Nat × Bool × Option FaultRecord) :=
  (after s).map (fun t => (t.acc, t.pc, t.steps, t.halted, t.fault))

/-! ## Well-formedness -/

theorem test_unknown_with_a_table_value_is_ill_formed : (Instr.unknown 0x10).wellFormed = false := by decide

theorem test_unknown_with_an_interior_value_is_ill_formed : (Instr.unknown 0xB0).wellFormed = false := by decide

theorem test_unknown_outside_the_table_is_well_formed : (Instr.unknown 0xFF).wellFormed = true := by decide

/-! ## Decoding, one word of each constructor, from rule R54 -/

theorem test_decode_nop : decode [0x00000000, 7] = .ok (.nop, [7]) := by rfl
theorem test_decode_sta : decode [0x00000010, 0xFFFFFFFE, 3] = .ok (.sta (-2), [3]) := by rfl
theorem test_decode_lda : decode [0x00000020, 0xFFFFFFFE, 3] = .ok (.lda (-2), [3]) := by rfl
theorem test_decode_add : decode [0x00000030, 0xFFFFFFFE, 3] = .ok (.add (-2), [3]) := by rfl
theorem test_decode_or : decode [0x00000040, 0xFFFFFFFE, 3] = .ok (.or (-2), [3]) := by rfl
theorem test_decode_and : decode [0x00000050, 0xFFFFFFFE, 3] = .ok (.and (-2), [3]) := by rfl
theorem test_decode_not : decode [0x00000060, 7] = .ok (.not, [7]) := by rfl
theorem test_decode_sub : decode [0x00000070, 0xFFFFFFFE, 3] = .ok (.sub (-2), [3]) := by rfl
theorem test_decode_jmp : decode [0x00000080, 0xFFFFFFFE, 3] = .ok (.jmp (-2), [3]) := by rfl
theorem test_decode_jn : decode [0x00000090, 0xFFFFFFFE, 3] = .ok (.jn (-2), [3]) := by rfl
theorem test_decode_jp : decode [0x00000094, 0xFFFFFFFE, 3] = .ok (.jp (-2), [3]) := by rfl
theorem test_decode_jv : decode [0x00000098, 0xFFFFFFFE, 3] = .ok (.jv (-2), [3]) := by rfl
theorem test_decode_jnv : decode [0x0000009C, 0xFFFFFFFE, 3] = .ok (.jnv (-2), [3]) := by rfl
theorem test_decode_jz : decode [0x000000A0, 0xFFFFFFFE, 3] = .ok (.jz (-2), [3]) := by rfl
theorem test_decode_jnz : decode [0x000000A4, 0xFFFFFFFE, 3] = .ok (.jnz (-2), [3]) := by rfl
theorem test_decode_jc : decode [0x000000B0, 0xFFFFFFFE, 3] = .ok (.jc (-2), [3]) := by rfl
theorem test_decode_jnc : decode [0x000000B4, 0xFFFFFFFE, 3] = .ok (.jnc (-2), [3]) := by rfl
theorem test_decode_jb : decode [0x000000B8, 0xFFFFFFFE, 3] = .ok (.jb (-2), [3]) := by rfl
theorem test_decode_jnb : decode [0x000000BC, 0xFFFFFFFE, 3] = .ok (.jnb (-2), [3]) := by rfl
theorem test_decode_shr : decode [0x000000E0, 7] = .ok (.shr, [7]) := by rfl
theorem test_decode_shl : decode [0x000000E1, 7] = .ok (.shl, [7]) := by rfl
theorem test_decode_ror : decode [0x000000E2, 7] = .ok (.ror, [7]) := by rfl
theorem test_decode_rol : decode [0x000000E3, 7] = .ok (.rol, [7]) := by rfl
theorem test_decode_hlt : decode [0x000000F0, 7] = .ok (.hlt, [7]) := by rfl
theorem test_decode_unknown : decode [0x00000110, 7] = .ok (.unknown 272, [7]) := by rfl

/-- UNKNOWN examples of rule R92: inside the conditional-jump range, one past ROL, negative. -/
theorem test_decode_unknown_examples :
    [0xA8, 0x91, 0xE4, 0xF1, 0x1F0, -1].map (fun v => lookupOp (BitVec.ofInt Config.W v)) =
      List.replicate 6 (.unknown, false) := by decide

theorem test_decode_rejects_a_missing_operand : decode [0x00000010] = .error (.noOperandCell .sta) := by rfl

theorem test_decode_rejects_no_cell : decode [] = .error .noOpcodeCell := by rfl

theorem test_table_word_one_cell : decodeTableWord 32 0xF0 = some .hlt := by decide

theorem test_table_word_two_cells : decodeTableWord 64 0x0000000500000010 = some (.sta 5) := by decide

/-- A table word placed at reset is what the very next step runs. -/
theorem test_withFetchWord_runs_next : regs (State.reset.withFetchWord 64 0x0000000500000080) =
    some (0, 5, 1, false, none) := by decide

/-! ## Instructions, from the vectors -/

theorem test_nop_V_NOP_1 : regs (st [0, 0, 0, 0, 0, 0, 0, 0] (7) 0 0) = some (7, 1, 1, false, none) := by decide
theorem test_nop_at_seven_V_NOP_2 : regs (st [0, 0, 0, 0, 0, 0, 0, 0] 0 7 7) = some (0, 8, 8, false, none) := by decide
theorem test_hlt_V_HLT_1 : regs (st [0, 0, 0, 0, 240, 0, 0, 0] (4) 4 2) = some (4, 5, 3, true, none) := by decide
theorem test_hlt_at_seven_V_HLT_2 : regs (st [0, 0, 0, 0, 0, 0, 0, 240] 0 7 3) = some (0, 8, 4, true, none) := by decide
theorem test_unknown_V_UNK_1 : regs (st [0, 0, 255, 0, 0, 0, 0, 0] (9) 2 5) = some (9, 3, 6, false, none) := by decide
theorem test_unknown_is_compared_whole_V_UNK_4 : regs (st [272, 9, 0, 0, 0, 0, 0, 0] (3) 0 0) = some (3, 1, 1, false, none) := by decide
theorem test_sta_outside_memory_V_STA_7 : regs (st [16, 8, 0, 0, 0, 0, 0, 0] (1) 0 0) = some (1, 1, 1, false, some ⟨.targetOutOfRange, some .sta, 8⟩) := by decide
theorem test_lda_V_LDA_1 : regs (st [0, 0, 32, 7, 0, 0, 0, 4] (30) 2 1) = some (4, 4, 2, false, none) := by decide
theorem test_lda_outside_memory_V_LDA_5 : regs (st [32, -1, 240, 0, 0, 0, 0, 0] (1) 0 0) = some (1, 1, 1, false, some ⟨.targetOutOfRange, some .lda, -1⟩) := by decide
theorem test_add_wraps_V_ADD_5 : regs (st [48, 7, 0, 0, 0, 0, 0, 1] (2147483647) 0 0) = some (-2147483648, 2, 1, false, none) := by decide
theorem test_add_outside_memory_V_ADD_8 : regs (st [48, 8, 240, 0, 0, 0, 0, 0] (1) 0 0) = some (1, 1, 1, false, some ⟨.undefinedOperandRead, some .add, 8⟩) := by decide
theorem test_sub_V_SUB_2 : regs (st [112, 7, 0, 0, 0, 0, 0, 5] (2) 0 0) = some (-3, 2, 1, false, none) := by decide
theorem test_sub_wraps_V_SUB_4 : regs (st [112, 7, 0, 0, 0, 0, 0, 1] (-2147483648) 0 0) = some (2147483647, 2, 1, false, none) := by decide
theorem test_jmp_V_JMP_1 : regs (st [128, 4, 0, 0, 0, 0, 0, 0] 0 0 0) = some (0, 4, 1, false, none) := by decide
theorem test_jmp_to_eight_V_JMP_4 : regs (st [128, 8, 0, 0, 0, 0, 0, 0] 0 0 0) = some (0, 1, 1, false, some ⟨.targetOutOfRange, some .jmp, 8⟩) := by decide
theorem test_or_V_OR_1 : regs (st [64, 99, 0, 0, 0, 0, 0, 0] (5) 0 0) = some (5, 2, 1, false, none) := by decide
theorem test_or_at_seven_V_OR_2 : regs (st [0, 0, 0, 0, 0, 0, 0, 64] 0 7 0) = some (0, 8, 1, false, some ⟨.pcOverflowDuringFetch, some .or, 8⟩) := by decide
theorem test_and_V_AND_1 : regs (st [0, 0, 80, 6, 0, 0, 0, 0] (7) 2 1) = some (7, 4, 2, false, none) := by decide
theorem test_not_V_NOT_1 : regs (st [96, 0, 0, 0, 0, 0, 0, 0] (1) 0 0) = some (1, 1, 1, false, none) := by decide
theorem test_shr_V_SHR_1 : regs (st [224, 0, 0, 0, 0, 0, 0, 0] (8) 0 0) = some (8, 1, 1, false, none) := by decide
theorem test_shl_V_SHL_1 : regs (st [225, 0, 0, 0, 0, 0, 0, 0] (8) 0 0) = some (8, 1, 1, false, none) := by decide
theorem test_ror_V_ROR_1 : regs (st [226, 0, 0, 0, 0, 0, 0, 0] (1) 0 0) = some (1, 1, 1, false, none) := by decide
theorem test_rol_V_ROL_1 : regs (st [227, 0, 0, 0, 0, 0, 0, 0] (1) 0 0) = some (1, 1, 1, false, none) := by decide
theorem test_jn_V_CJ_1 : regs (st [144, 5, 0, 0, 0, 0, 0, 0] (-1) 0 0) = some (-1, 2, 1, false, none) := by decide
theorem test_jp_V_CJ_2 : regs (st [148, 5, 0, 0, 0, 0, 0, 0] (1) 0 0) = some (1, 2, 1, false, none) := by decide
theorem test_jv_V_CJ_3 : regs (st [152, 5, 0, 0, 0, 0, 0, 0] (-2147483648) 0 0) = some (-2147483648, 2, 1, false, none) := by decide
theorem test_jnv_V_CJ_4 : regs (st [156, 5, 0, 0, 0, 0, 0, 0] (3) 0 0) = some (3, 2, 1, false, none) := by decide
theorem test_jz_V_CJ_5 : regs (st [160, 5, 0, 0, 0, 0, 0, 0] 0 0 0) = some (0, 2, 1, false, none) := by decide
theorem test_jnz_V_CJ_6 : regs (st [164, 5, 0, 0, 0, 0, 0, 0] (5) 0 0) = some (5, 2, 1, false, none) := by decide
theorem test_jc_V_CJ_7 : regs (st [176, 5, 0, 0, 0, 0, 0, 0] 0 0 0) = some (0, 2, 1, false, none) := by decide
theorem test_jnc_V_CJ_8 : regs (st [180, 5, 0, 0, 0, 0, 0, 0] (2) 0 0) = some (2, 2, 1, false, none) := by decide
theorem test_jb_V_CJ_9 : regs (st [184, 5, 0, 0, 0, 0, 0, 0] (-3) 0 0) = some (-3, 2, 1, false, none) := by decide
theorem test_jnb_V_CJ_10 : regs (st [188, 5, 0, 0, 0, 0, 0, 0] (4) 0 0) = some (4, 2, 1, false, none) := by decide
theorem test_pc_eight_V_NOP_3 : regs (st [0, 0, 0, 0, 0, 0, 0, 0] 0 8 8) = some (0, 8, 8, false, some ⟨.pcOutOfBounds, none, 8⟩) := by decide

theorem test_sta_V_STA_1 : (after (st [0x10, 5, 0x20, 7, 0xF0, 0, 0, 4] 30 0)).map (fun t => (t.mem, t.acc, t.pc)) =
    some (mem8 [0x10, 5, 0x20, 7, 0xF0, 30, 0, 4], 30, 2) := by decide

/-- Storing what an unlisted cell reads as takes the entry out: equal memories are equal data. -/
theorem test_store_of_zero_is_canonical : (mem8 [1, 2, 3, 0, 0, 0, 0, 0]).write 1 0 = [(0, 1), (2, 3)] := by decide

/-- V-INS-3: a data cell equal to an opcode is shown as an instruction and swallows the next cell. -/
theorem test_inspector_V_INS_3 : inspect (mem8 [32, 3, 240, 16, 0, 0, 0, 0]) =
    some [.withOperand .lda 32 3, .named .hlt 240, .withOperand .sta 16 0, .named .nop 0, .named .nop 0,
      .named .nop 0] := by decide

/-- Rule R63: no specified output where the sweep reads an operand-consuming value in the last cell. -/
theorem test_inspector_open_case : inspect (mem8 [0, 0, 0, 0, 0, 0, 0, 16]) = none := by decide

/-- V-FLT-1 and V-FLT-2: the outcomes of a FAULTED and of a halted machine. -/
theorem test_outcomes_of_stopped_machines :
    (stepOutcome { st [] 0 8 with fault := some ⟨.pcOutOfBounds, none, 8⟩ }).1 = .fault ⟨.pcOutOfBounds, none, 8⟩ ∧
    (stepOutcome { st [] 0 8 with halted := true }).1 = .postHaltWarning := by decide

/-! ## Witnesses: states and operands that meet the hypotheses of the statements -/

theorem witness_LoadSetsImageAndAccumulator :
    (∀ i, intMin ≤ (#v[intMin, intMax, 32, 7, 240, 0, 0, 4] : Vector Int 8).get i ∧
      (#v[intMin, intMax, 32, 7, 240, 0, 0, 4] : Vector Int 8).get i ≤ intMax) ∧ intMin ≤ intMax ∧ intMax ≤ intMax := by
  decide

theorem witness_LoadRefusesValueOutOfRange : Session.reset.phase = .awaitingLoad ∧
    (∃ i, (#v[0, 0, 0, 0, 0, 0, 0, -2147483649] : Vector Int 8).get i < intMin ∨
      intMax < (#v[0, 0, 0, 0, 0, 0, 0, -2147483649] : Vector Int 8).get i) ∧ intMax < 2147483648 := by decide

theorem witness_HostOperationsKeepTheirOrder :
    Session.reset.phase = .awaitingLoad ∧ (Session.mk .launched State.reset).phase = .launched := by decide

theorem witness_LoadIsAcceptedOnlyInResetState :
    ∃ c, [HostOp.load (#v[0, 0, 0, 0, 0, 0, 0, 2147483648]) 0, .step, .observe].foldl
        (fun d op => (d.apply op).2) Session.reset = c ∧
      (c.apply (.load (#v[16, 5, 32, 7, 240, 0, 0, 4]) 30)).1 = .loadAccepted := ⟨_, rfl, by decide⟩

theorem witness_EntryPointIsAddressZero : ∃ s : State, s.launch (#v[16, 5, 32, 7, 240, 0, 0, 4]) 30 :=
  ⟨_, rfl⟩

theorem witness_LaunchHasTheInvariant : ∃ s : State, s.launch (#v[intMin, intMax, 32, 7, 240, 0, 0, 4]) intMin :=
  ⟨_, rfl⟩

theorem witness_DecodeOfEncodeIsTheInstruction :
    (Instr.sta (-1)).wellFormed = true ∧ (Instr.unknown 0x91).wellFormed = true := by decide

theorem witness_EncodeOfDecodeIsTheCells : decode [0xBC, -7, 3] = .ok (.jnb (-7), [3]) := by rfl

theorem witness_CellSelectsARowByExactValue : (⟨.jnb, 0xBC, true⟩ : OpRow) ∈ opTable := by decide

theorem witness_EveryCellValueDecodes : ∀ r ∈ opTable, r.value ≠ (0x110 : Word).toInt := by decide

theorem witness_LengthIsDecidedByTheOpcode :
    decode ((0xBC : Word) :: [1, 2]) = .ok (.jnb 1, [2]) ∧ decode ((0xBB : Word) :: [1, 2]) = .ok (.unknown 0xBB, [1, 2]) :=
  ⟨rfl, rfl⟩

theorem witness_StepRunsTheDecodedInstruction :
    ((st [0, 0, 0, 0, 0, 0, 16, 3] 5 6).running ∧
      decode (st [0, 0, 0, 0, 0, 0, 16, 3] 5 6).cellsFromPc = .ok (.sta 3, [])) ∧
    (st [0, 0, 0, 0, 0, 0, 0, 240] 0 7).running ∧
      decode (st [0, 0, 0, 0, 0, 0, 0, 240] 0 7).cellsFromPc = .ok (.hlt, []) :=
  ⟨⟨⟨rfl, rfl⟩, rfl⟩, ⟨rfl, rfl⟩, rfl⟩

theorem witness_HaltedStepWarnsAndChangesNothing :
    ({ st [] 0 8 with halted := true } : State).fault = none ∧ ({ st [] 0 8 with halted := true } : State).halted = true := by
  decide

theorem witness_FaultedStepReturnsTheRecordAgain :
    ({ st [] 0 8 with fault := some ⟨.pcOutOfBounds, none, 8⟩ } : State).fault = some ⟨.pcOutOfBounds, none, 8⟩ := by decide

theorem witness_EveryUnfaultedStepHasANextState : (st [48, 8] 1 0).fault = none := by decide

theorem witness_ProgramCounterOutOfBoundsIsFatal :
    ((st [] 0 8).running ∧ outside (st [] 0 8).pc) ∧ (st [] 0 (-1)).running ∧ outside (st [] 0 (-1)).pc := by decide

theorem witness_OperandFetchPastMemoryIsFatal :
    (st [0, 0, 0, 0, 0, 0, 0, 144] 0 7).running ∧ (st [0, 0, 0, 0, 0, 0, 0, 144] 0 7).pc = 7 ∧
    (lookupOp ((st [0, 0, 0, 0, 0, 0, 0, 144] 0 7).mem.read 7)).1 = .jn ∧ Mnemonic.consumesOperand .jn = true := by decide

/-- The instruction pair at address 0 of a state. -/
theorem fetchesPair_at_zero (op a : Int) (rest : List Int) (acc : Int) (steps : Nat)
    (h0 : (mem8 (op :: a :: rest)).read 0 = BitVec.ofInt Config.W op)
    (h1 : (mem8 (op :: a :: rest)).read 1 = BitVec.ofInt Config.W a) :
    (st (op :: a :: rest) acc 0 steps).fetchesPair (BitVec.ofInt Config.W op) (BitVec.ofInt Config.W a) :=
  ⟨⟨rfl, rfl⟩, 0, 1, rfl, rfl, h0, h1⟩

theorem witness_CheckedTargetOutsideMemoryIsFatal :
    ((st [16, 8] 1 0).fetchesPair 0x10 8 ∧ outside 8) ∧ ((st [32, -1] 1 0).fetchesPair 0x20 (-1) ∧ outside (-1)) ∧
    (st [128, 8] 1 0).fetchesPair 0x80 8 :=
  ⟨⟨fetchesPair_at_zero 16 8 [] 1 0 rfl rfl, by decide⟩, ⟨fetchesPair_at_zero 32 (-1) [] 1 0 rfl rfl, by decide⟩,
    fetchesPair_at_zero 128 8 [] 1 0 rfl rfl⟩

theorem witness_UncheckedOperandIsAnUndefinedRead :
    ((st [48, 8] 1 0).fetchesPair 0x30 8 ∧ outside 8) ∧ (st [112, -1] 1 0).fetchesPair 0x70 (-1) ∧ outside (-1) :=
  ⟨⟨fetchesPair_at_zero 48 8 [] 1 0 rfl rfl, by decide⟩, fetchesPair_at_zero 112 (-1) [] 1 0 rfl rfl, by decide⟩

theorem witness_FaultsArePrecise :
    (∃ t r, (st [] 0 8).fault = none ∧ step (st [] 0 8) = .next t ∧ t.fault = some r ∧ r.cause = .pcOutOfBounds) ∧
    ∃ t r, (st [48, 8] 1 0).fault = none ∧ step (st [48, 8] 1 0) = .next t ∧ t.fault = some r ∧
      r.cause ≠ .pcOutOfBounds := ⟨⟨_, _, rfl, rfl, rfl, rfl⟩, ⟨_, _, rfl, rfl, rfl, by decide⟩⟩

theorem witness_StateMachineHasThreeStates :
    (∃ t, step (st [240] 0 0) = .next t ∧ (st [240] 0 0).running ∧ t.halted = true) ∧
    ∃ t, step { st [] 0 8 with halted := true } = .next t := ⟨⟨_, rfl, ⟨rfl, rfl⟩, rfl⟩, ⟨_, rfl⟩⟩

theorem witness_StepCounterCountsExecutedInstructions :
    ((st [48, 8] 1 7).running ∧ ¬ outside (st [48, 8] 1 7).pc) ∧
    ∃ t, step (st [] 1 8) = .next t ∧ outside (st [] 1 8).pc := ⟨by decide, ⟨_, rfl, by decide⟩⟩

theorem witness_StepCounterHasNoInfluence : ∃ t, step (st [48, 7] 1 0) = .next t := ⟨_, rfl⟩

theorem witness_ProgramCounterMovesByTheInstruction :
    (∃ t, (st [0, 0, 0, 0, 0, 0, 0, 255] 0 7).running ∧ (st [0, 0, 0, 0, 0, 0, 0, 255] 0 7).pc.toInt = (7 : Addr).val ∧
      (lookupOp ((st [0, 0, 0, 0, 0, 0, 0, 255] 0 7).mem.read 7)).1 = .unknown ∧
      step (st [0, 0, 0, 0, 0, 0, 0, 255] 0 7) = .next t ∧ t.fault = none) ∧
    (∃ t, step (st [0, 0, 0, 0, 0, 0, 188, 0] 0 6) = .next t ∧ t.fault = none) ∧
    ∃ t, step (st [0, 0, 0, 0, 0, 0, 128, 2] 0 6) = .next t ∧ t.fault = none :=
  ⟨⟨_, ⟨rfl, rfl⟩, rfl, rfl, rfl, rfl⟩, ⟨_, rfl, rfl⟩, ⟨_, rfl, rfl⟩⟩

theorem witness_FinalAdvanceIsUncheckedAndByOne :
    (∃ t, exec .hlt (st [] 0 7) = .next t ∧ t.fault = none) ∧ (∃ t, exec (.jmp 7) (st [] 0 1) = .next t ∧ t.fault = none) ∧
    ∃ t, exec (.jmp 8) (st [] 0 1) = .next t ∧ t.fault ≠ none :=
  ⟨⟨_, rfl, rfl⟩, ⟨_, rfl, rfl⟩, ⟨_, rfl, by decide⟩⟩

theorem witness_OnlyStaWritesMemory : ∃ t, step (st [16, 7] 1 0) = .next t ∧ t.mem ≠ (st [16, 7] 1 0).mem :=
  ⟨_, rfl, by decide⟩

theorem witness_AccumulatorReadersAndWriters :
    (∃ t, exec (.lda 7) (st [0, 0, 0, 0, 0, 0, 0, 4] 1 1) = .next t ∧ t.acc ≠ (st [0, 0, 0, 0, 0, 0, 0, 4] 1 1).acc) ∧
    (Instr.lda 8).mnemonic ∉ [Mnemonic.sta, .add, .sub] ∧
    (∃ t, exec (.lda 7) (st [] 1 1) = .next t ∧ (st [] 1 1).fault = none ∧ t.fault = none) ∧
    (7 : Word).toInt = (7 : Addr).val ∧
    (st [0, 0, 0, 0, 0, 0, 0, 1] 2147483646 1).acc.toInt + ((st [0, 0, 0, 0, 0, 0, 0, 1] 2147483646 1).mem.read 7).toInt ≤
      intMax ∧
    intMin ≤ (st [0, 0, 0, 0, 0, 0, 0, 1] (-2147483647) 1).acc.toInt -
      ((st [0, 0, 0, 0, 0, 0, 0, 1] (-2147483647) 1).mem.read 7).toInt :=
  ⟨⟨_, rfl, by decide⟩, by decide, ⟨_, rfl, rfl, rfl⟩, by decide, by decide, by decide⟩

theorem fetchesOpcode_at_zero (op : Int) (rest : List Int) (acc : Int) (steps : Nat)
    (h0 : (mem8 (op :: rest)).read 0 = BitVec.ofInt Config.W op) :
    (st (op :: rest) acc 0 steps).fetchesOpcode (BitVec.ofInt Config.W op) := ⟨⟨rfl, rfl⟩, 0, rfl, h0⟩

theorem witness_HaltedIsSetByHltAloneAndIsFinal :
    (st [0, 0, 0, 0, 0, 0, 0, 240] 0 7).fetchesOpcode 0xF0 ∧
    (∃ t, step (st [240] 0 0) = .next t ∧ (st [240] 0 0).halted = false ∧ t.halted = true) ∧
    ∃ t, step { st [] 0 8 with halted := true } = .next t :=
  ⟨⟨⟨rfl, rfl⟩, 7, rfl, rfl⟩, ⟨_, rfl, rfl, rfl⟩, ⟨_, rfl⟩⟩

theorem witness_NopUnknownAndStubsOnlyAdvance :
    (Instr.unknown 5).mnemonic ∈ [Mnemonic.nop, .unknown] ∧ (Instr.rol).mnemonic.isLogicShiftStub = true ∧
    (Instr.jn 5).mnemonic.isCondJumpStub = true := by decide

theorem witness_EffectiveInstructionsComplete : (7 : Word).toInt = (7 : Addr).val ∧ (0 : Word).toInt = (0 : Addr).val := by
  decide

theorem witness_NopStep :
    (st [0, 0, 0, 0, 0, 0, 0, 0] 7 7).fetchesOpcode 0 ∧ (st [0, 0, 0, 0, 0, 0, 0, 0] 7 7).pc = 7 ∧
    (st [] 7 0).running ∧ (st [] 7 0).pc = 0 ∧ ∀ a, (st [] 7 0).mem.read a = 0 :=
  ⟨⟨⟨rfl, rfl⟩, 7, rfl, rfl⟩, rfl, ⟨rfl, rfl⟩, rfl, by decide⟩

theorem witness_UnknownStep : (st [-1] 0 0).fetchesOpcode (-1) ∧ (st [145] 0 0).fetchesOpcode 145 ∧
    (-1 : Word).toInt ∉ [0x00, 0x10, 0x20, 0x30, 0x40, 0x50, 0x60, 0x70, 0x80, 0x90, 0x94, 0x98, 0x9C, 0xA0, 0xA4, 0xB0,
      0xB4, 0xB8, 0xBC, 0xE0, 0xE1, 0xE2, 0xE3, 0xF0] :=
  ⟨fetchesOpcode_at_zero (-1) [] 0 0 rfl, fetchesOpcode_at_zero 145 [] 0 0 rfl, by decide⟩

theorem witness_StaStep :
    ((st [16, 0] 9 0).fetchesPair 0x10 0 ∧ (0 : Word).toInt = (0 : Addr).val) ∧
    ((st [0, 0, 0, 0, 0, 0, 0, 16] 9 7).running ∧ (st [0, 0, 0, 0, 0, 0, 0, 16] 9 7).pc = 7 ∧
      (st [0, 0, 0, 0, 0, 0, 0, 16] 9 7).mem.read 7 = 0x10) ∧ (st [16, 8] 9 0).fetchesPair 0x10 8 ∧ outside 8 :=
  ⟨⟨fetchesPair_at_zero 16 0 [] 9 0 rfl rfl, rfl⟩, ⟨⟨rfl, rfl⟩, rfl, rfl⟩, fetchesPair_at_zero 16 8 [] 9 0 rfl rfl, by decide⟩

theorem witness_LdaStep :
    ((st [32, 7] 9 0).fetchesPair 0x20 7 ∧ (7 : Word).toInt = (7 : Addr).val) ∧
    ((st [0, 0, 0, 0, 0, 0, 0, 32] 9 7).running ∧ (st [0, 0, 0, 0, 0, 0, 0, 32] 9 7).pc = 7 ∧
      (st [0, 0, 0, 0, 0, 0, 0, 32] 9 7).mem.read 7 = 0x20) ∧ (st [32, -1] 9 0).fetchesPair 0x20 (-1) ∧ outside (-1) :=
  ⟨⟨fetchesPair_at_zero 32 7 [] 9 0 rfl rfl, rfl⟩, ⟨⟨rfl, rfl⟩, rfl, rfl⟩, fetchesPair_at_zero 32 (-1) [] 9 0 rfl rfl,
    by decide⟩

/-- The sum at its upper bound fits; one more wraps. -/
theorem witness_AddSubStep :
    ((st [48, 7, 0, 0, 0, 0, 0, 1] 2147483646 0).fetchesPair 0x30 7 ∧ (7 : Word).toInt = (7 : Addr).val ∧
      (2147483646 : Int) + 1 ≤ intMax) ∧
    (st [112, 7, 0, 0, 0, 0, 0, 1] (-2147483647) 0).fetchesPair 0x70 7 ∧ intMin ≤ (-2147483647 : Int) - 1 :=
  ⟨⟨fetchesPair_at_zero 48 7 [0, 0, 0, 0, 0, 1] 2147483646 0 rfl rfl, rfl, by decide⟩,
    fetchesPair_at_zero 112 7 [0, 0, 0, 0, 0, 1] (-2147483647) 0 rfl rfl, by decide⟩

theorem witness_WrapIsTheUniqueCongruentValue :
    intMin ≤ intMin ∧ intMin ≤ intMax ∧ (2 ^ Config.W : Int) ∣ intMin - 2147483648 := by decide

theorem witness_AddTwiceIsAddOfTheSum :
    (5 : Word).toInt = (5 : Addr).val ∧ (6 : Word).toInt = (6 : Addr).val ∧ (7 : Word).toInt = (7 : Addr).val ∧
    (mem8 [48, 5, 48, 6, 0, 2, 3, 5]).read 7 =
      wrapW (((mem8 [48, 5, 48, 6, 0, 2, 3, 5]).read 5).toInt + ((mem8 [48, 5, 48, 6, 0, 2, 3, 5]).read 6).toInt) := by
  decide

theorem witness_JmpStep :
    ((st [128, 7] 9 0).fetchesPair 0x80 7 ∧ ¬ outside 7) ∧
    ((st [0, 0, 0, 0, 0, 0, 0, 128] 9 7).running ∧ (st [0, 0, 0, 0, 0, 0, 0, 128] 9 7).pc = 7 ∧
      (st [0, 0, 0, 0, 0, 0, 0, 128] 9 7).mem.read 7 = 0x80) ∧ (st [128, 8] 9 0).fetchesPair 0x80 8 ∧ outside 8 :=
  ⟨⟨fetchesPair_at_zero 128 7 [] 9 0 rfl rfl, by decide⟩, ⟨⟨rfl, rfl⟩, rfl, rfl⟩, fetchesPair_at_zero 128 8 [] 9 0 rfl rfl,
    by decide⟩

theorem witness_LogicAndShiftStubsDoNothing :
    (st [64, -1] 9 0).fetchesPair 0x40 (-1) ∧ (st [227] 9 0).fetchesOpcode 0xE3 ∧
    ((st [0, 0, 0, 0, 0, 0, 0, 80] 9 7).running ∧ (st [0, 0, 0, 0, 0, 0, 0, 80] 9 7).pc = 7 ∧
      lookupOp ((st [0, 0, 0, 0, 0, 0, 0, 80] 9 7).mem.read 7) = (.and, true) ∧ Mnemonic.isLogicShiftStub .and = true) :=
  ⟨fetchesPair_at_zero 64 (-1) [] 9 0 rfl rfl, fetchesOpcode_at_zero 227 [] 9 0 rfl, ⟨rfl, rfl⟩, rfl, rfl, rfl⟩

theorem witness_ConditionalJumpsFallThrough :
    ((lookupOp 0xBC).1.isCondJumpStub = true ∧ (st [188, 8] 9 0).fetchesPair 0xBC 8) ∧
    ((lookupOp 0x50).1 = .and ∧ (st [80, -1] 9 0).fetchesPair 0x50 (-1)) ∧
    ((st [0, 0, 0, 0, 0, 0, 0, 144] 9 7).running ∧ (st [0, 0, 0, 0, 0, 0, 0, 144] 9 7).pc = 7 ∧
      lookupOp ((st [0, 0, 0, 0, 0, 0, 0, 144] 9 7).mem.read 7) = (.jn, true) ∧ Mnemonic.isCondJumpStub .jn = true) :=
  ⟨⟨rfl, fetchesPair_at_zero 188 8 [] 9 0 rfl rfl⟩, ⟨rfl, fetchesPair_at_zero 80 (-1) [] 9 0 rfl rfl⟩, ⟨rfl, rfl⟩, rfl, rfl,
    rfl⟩

theorem witness_StoreIsSeenByTheNextFetch :
    (st [16, 2] 240 0).fetchesPair 0x10 2 ∧ (2 : Word).toInt = (st [16, 2] 240 0).pc.toInt + 2 ∧ (2 : Word).toInt ≤ 7 :=
  ⟨fetchesPair_at_zero 16 2 [] 240 0 rfl rfl, by decide, by decide⟩

/-- `STA 7` at address 0, its memory written out in canonical form. -/
def staState : State := ⟨[(0, 16), (1, 7)], 1, 0, 0, false, none⟩

theorem witness_StepKeepsTheInvariant : staState.Inv ∧ ∃ t, step staState = .next t :=
  ⟨⟨by decide, by decide, by decide, by decide, by simp [staState], by simp [staState]⟩,
    ⟨_, rfl⟩⟩

theorem witness_RunsFromLaunchKeepTheInvariant :
    ∃ s t : State, s.launch (#v[16, 5, 32, 7, 240, 0, 0, 4]) 30 ∧ s.reaches 1 t := ⟨_, _, rfl, rfl⟩

theorem witness_DrivingLoopEndsAtTheFirstHaltOrFault :
    (st [240] 0 0).fault = none ∧ (∃ t r, drive 1 (st [240] 0 0) = (.soft r, t)) ∧
    (∃ t r, drive 1 (st [] 0 8) = (.hard r, t)) ∧ ∃ t, drive 1 (st [128, 0] 0 0) = (.unfinished, t) :=
  ⟨rfl, ⟨_, _, rfl⟩, ⟨_, _, rfl⟩, ⟨_, rfl⟩⟩

theorem witness_JumpToItselfNeverEnds : (st [128, 0] 9 0).fetchesPair 0x80 0 ∧ (st [128, 0] 9 0).pc = 0 :=
  ⟨fetchesPair_at_zero 128 0 [] 9 0 rfl rfl, rfl⟩

theorem witness_InspectorShowsEveryCellOnce :
    (∃ ls, inspect (mem8 [16, 5, 32, 7, 240, 30, 0, 4]) = some ls) ∧ inspect (mem8 [0, 0, 0, 0, 0, 0, 0, 188]) = none :=
  ⟨⟨_, rfl⟩, rfl⟩

end Sys2Proof.Tests
end

section
/-! Proofs of the statements about the scope (00_scope.md rules R6, R7): every step of a machine that is not FAULTED has
a next state, and what `wrap_W` is. -/

namespace Sys2Proof.Machine

/-- The two answers of a step: a FAULTED machine returns its record again (rule R71), any other one has a next state.
A refusal is none of them. -/
theorem step_latched_or_next (s : State) :
    (∃ r, s.fault = some r ∧ step s = .fault (.latched r)) ∨ (s.fault = none ∧ ∃ t, step s = .next t) := by
  have hc := step_case s
  generalize step s = answer at hc ⊢
  cases hc with
  | faulted r hf => exact .inl ⟨r, hf, rfl⟩
  | warned hf _ => exact .inr ⟨hf, _, rfl⟩
  | outOfBounds hr _ => exact .inr ⟨hr.2, _, rfl⟩
  | overflow hr _ _ _ => exact .inr ⟨hr.2, _, rfl⟩
  | oneCell hr _ _ _ _ =>
    obtain ⟨t, ht, _⟩ := exec_effect _ _
    exact .inr ⟨hr.2, t, ht⟩
  | twoCells hr _ _ _ _ _ _ =>
    obtain ⟨t, ht, _⟩ := exec_effect _ _
    exact .inr ⟨hr.2, t, ht⟩

/-- Settles O17: by the ways a step can go, each of which is the latched record or a next state. -/
theorem everyUnfaultedStepHasANextState : Obligations.EveryUnfaultedStepHasANextState := by
  intro s
  rcases step_latched_or_next s with ⟨r, hf, hs⟩ | ⟨hf, t, hs⟩
  · exact ⟨by simp [hf], by simp [hs]⟩
  · exact ⟨fun _ => ⟨t, hs⟩, by simp [hs]⟩

/-- A word stands for an integer of the range of rule R3. -/
theorem intMin_le_toInt (v : Word) : intMin ≤ v.toInt := BitVec.le_toInt v

/-- The upper end of that range. -/
theorem toInt_le_intMax (v : Word) : v.toInt ≤ intMax := Int.le_sub_one_of_lt (BitVec.toInt_lt (x := v))

/-- `wrap_W` changes a value by a multiple of `2^W`. -/
theorem wrapW_congr (v : Int) : (2 ^ Config.W : Int) ∣ (wrapW v).toInt - v := by
  rw [wrapW_toInt]
  exact Int.dvd_bmod_sub_self

/-- The range is `2^W` consecutive integers, so two congruent ones in it are one. -/
theorem eq_of_inRange_of_congr (x y : Int) (hx : intMin ≤ x ∧ x ≤ intMax) (hy : intMin ≤ y ∧ y ≤ intMax)
    (h : (2 ^ Config.W : Int) ∣ x - y) : x = y := by
  have hlt : |x - y| < 2 ^ Config.W := by
    simp only [intMin, intMax] at hx hy
    rw [abs_lt]
    norm_num at *
    omega
  exact sub_eq_zero.mp (Int.eq_zero_of_abs_lt_dvd h hlt)

/-- Settles O38: `wrap_W v` is a word's integer, so it is in the range; it is congruent to `v`, and a value of the range
congruent to `v` is congruent to it and so equal. -/
theorem wrapIsTheUniqueCongruentValue : Obligations.WrapIsTheUniqueCongruentValue := by
  intro v
  refine ⟨intMin_le_toInt _, toInt_le_intMax _, wrapW_congr v, fun r hl hh hr => ?_⟩
  have hcongr : (2 ^ Config.W : Int) ∣ r - (wrapW v).toInt := by
    simpa using dvd_sub hr (wrapW_congr v)
  exact eq_of_inRange_of_congr r _ ⟨hl, hh⟩ ⟨intMin_le_toInt _, toInt_le_intMax _⟩ hcongr

end Sys2Proof.Machine
end

section
/-! Rules of the step and of the meanings that the statements of 10_state.md share: the converses of `effect_of_exec`
and `next_case`, so that a step or a meaning is settled by naming its effect, and how each effect moves the elements. -/

namespace Sys2Proof.Machine

/-- An effect determines the meaning's answer: the converse of `effect_of_exec`. -/
theorem exec_of_effect {i : Instr} {s t : State} (h : ExecEffect s i t) : exec i s = .next t := by
  cases h with
  | noOp i h =>
    cases i with
    | sta | lda | add | sub | jmp | hlt => simp [Instr.mnemonic] at h
    | _ => rfl
  | hlt => rfl
  | sta a p h => simp [exec, execSta, checkTarget, boundsCheck_of_toInt a p h]
  | lda a p h => simp [exec, execLda, checkTarget, boundsCheck_of_toInt a p h]
  | add a p h => simp [exec, execAdd, readUnchecked, boundsCheck_of_toInt a p h]
  | sub a p h => simp [exec, execSub, readUnchecked, boundsCheck_of_toInt a p h]
  | jmp a p h => simp [exec, execJmp, checkTarget, boundsCheck_of_toInt a p h]
  | target i a hi ho =>
    have hb := (boundsCheck_eq_none a).mpr ho
    simp only [List.mem_cons, List.mem_nil_iff, or_false] at hi
    rcases hi with rfl | rfl | rfl <;> simp [exec, execSta, execLda, execJmp, checkTarget, hb, Instr.mnemonic]
  | undefined i a hi ho =>
    have hb := (boundsCheck_eq_none a).mpr ho
    simp only [List.mem_cons, List.mem_nil_iff, or_false] at hi
    rcases hi with rfl | rfl <;> simp [exec, execAdd, execSub, readUnchecked, hb, Instr.mnemonic]

/-- Only LDA, ADD and SUB write `acc` (rule R13). -/
theorem ExecEffect.acc_eq {s t : State} {i : Instr} (h : ExecEffect s i t) :
    t.acc = s.acc ∨ i.mnemonic ∈ [Mnemonic.lda, .add, .sub] := by
  cases h with
  | lda | add | sub => exact .inr (by simp [Instr.mnemonic])
  | _ => exact .inl (by simp)

/-- How `pc` moves in a meaning that latches no record: by the final advance, or to the operand of JMP (rules R80,
R120). -/
theorem ExecEffect.pc_cases {s t : State} {i : Instr} (h : ExecEffect s i t) (hf : t.fault = none) :
    (i.mnemonic ≠ .jmp ∧ t.pc = s.pc + 1) ∨ ∃ (a : Word) (p : Addr), i = .jmp a ∧ a.toInt = p.val ∧ t.pc = a := by
  cases h with
  | noOp i h => exact .inl ⟨fun hj => h (by simp [hj]), rfl⟩
  | jmp a p h => exact .inr ⟨a, p, rfl, h, rfl⟩
  | target | undefined => simp at hf
  | _ => exact .inl ⟨by simp [Instr.mnemonic], rfl⟩

/-- A halted machine steps to itself (rule R72). -/
theorem step_halted (s : State) (hf : s.fault = none) (hh : s.halted = true) : step s = .next s := by
  simp [step, prepare, hf, hh]

/-- The step of a halted machine warns (rule R72). -/
theorem stepOutcome_halted (s : State) (hf : s.fault = none) (hh : s.halted = true) :
    stepOutcome s = (.postHaltWarning, s) := by
  simp [stepOutcome, step_halted s hf hh, hf, hh]

/-- A halted machine stays as it is for any number of steps. -/
theorem run_halted (s : State) (hf : s.fault = none) (hh : s.halted = true) (n : Nat) : core.run n s = .next s := by
  induction n with
  | zero => rfl
  | succ n ih => exact (run_succ s s n (step_halted s hf hh)).trans ih

/-- A step of a RUNNING machine whose `pc` names no cell (rule R73). -/
theorem step_outOfBounds (s : State) (hr : s.running) (ho : outside s.pc) :
    step s = .next (s.raise .pcOutOfBounds none s.pc) := by
  simp [step, prepare, hr.1, hr.2, (boundsCheck_eq_none s.pc).mpr ho]

/-- The way a step goes determines its next state: the converse of `next_case`. -/
theorem step_of_nextCase {s t : State} (h : NextCase s t) : step s = .next t := by
  cases h with
  | warned hf hh => exact step_halted s hf hh
  | outOfBounds hr ho => exact step_outOfBounds s hr ho
  | overflow hr hp mn hl => exact step_overflow s hr hp mn hl
  | oneCell _ hr p hp mn hl he => exact (step_oneCell s hr p hp mn hl).trans (exec_of_effect he)
  | twoCells _ hr p q hp hq mn hl i hi _ he =>
    subst hi
    exact (step_twoCells s hr p q hp hq mn hl).trans (exec_of_effect he)

/-- A machine that took a fatal outcome is FAULTED, not RUNNING. -/
theorem State.not_running_raise (s : State) (c : FaultCause) (mn : Option Mnemonic) (a : Word) :
    ¬ (s.raise c mn a).running := by
  simp [State.running]

/-- A step counts at most once, and a state that is RUNNING after it was RUNNING before it and has counted (rules R17,
R74). -/
theorem NextCase.steps_cases {s t : State} (h : NextCase s t) :
    t.steps ≤ s.steps + 1 ∧ (t.running → s.running ∧ t.steps = s.steps + 1) := by
  cases h with
  | warned _ hh => exact ⟨by omega, fun ht => by simp [ht.1] at hh⟩
  | outOfBounds => exact ⟨by simp, fun ht => absurd ht (State.not_running_raise _ _ _ _)⟩
  | overflow => exact ⟨by simp, fun ht => absurd ht (State.not_running_raise _ _ _ _)⟩
  | oneCell _ hr _ _ _ _ he | twoCells _ hr _ _ _ _ _ _ _ _ _ he =>
    have hsteps : t.steps = s.steps + 1 := he.steps_eq
    exact ⟨hsteps.le, fun _ => ⟨hr, hsteps⟩⟩

/-- The induction over a run: what holds of the start, counted 0, and is kept by every step, holds where `k` steps
lead. -/
theorem State.reaches.induction {P : Nat → State → Prop} {s t : State} {k : Nat} (h : s.reaches k t) (h0 : P 0 s)
    (hs : ∀ k u v, P k u → step u = .next v → P (k + 1) v) : P k t := by
  induction k generalizing t with
  | zero =>
    cases h
    exact h0
  | succ k ih =>
    obtain ⟨u, hu, ht⟩ := reaches_succ_inv s t k h
    exact hs k u t (ih hu) ht

/-- A list of cells that decodes from a RUNNING machine's `pc` on is what its step runs (rules R70 to R77). -/
theorem step_of_decode (s : State) (hr : s.running) (p : Addr) (hp : s.pc.toInt = p.val) (i : Instr)
    (rest : List Word) (hd : decode (s.mem.cells.drop p.val) = .ok (i, rest)) :
    step s = exec i { s with steps := s.steps + 1, pc := s.pc + BitVec.ofNat Config.W (i.length - 1) } := by
  rw [Memory.drop_cells] at hd
  have hlen (a : Word) := assemble_length (s.mem.read p) a
  rcases decode_cons (s.mem.read p) (s.mem.cells.drop (p.val + 1)) with
    ⟨mn, hl, hok⟩ | ⟨mn, a, rest', hl, hrest, hok⟩ | ⟨_, _, _, herr⟩
  · cases hok.symm.trans hd
    have h1 := hlen 0
    rw [hl] at h1
    rw [step_oneCell s hr p hp mn hl, h1]
    simp [State.countStep]
  · cases hok.symm.trans hd
    obtain ⟨q, hq⟩ : ∃ q : Addr, q.val = p.val + 1 := by
      have hlt : 0 < (s.mem.cells.drop (p.val + 1)).length := by simp [hrest]
      rw [List.length_drop, Memory.cells_length] at hlt
      exact ⟨⟨p.val + 1, show p.val + 1 < 8 by omega⟩, rfl⟩
    have ha : a = s.mem.read q := by
      rw [← hq, Memory.drop_cells] at hrest
      exact (List.cons.inj hrest).1.symm
    have h2 := hlen a
    rw [hl] at h2
    rw [step_twoCells s hr p q hp hq mn hl, ← ha, h2]
    rfl
  · cases herr.symm.trans hd

end Sys2Proof.Machine
end

section
/-! Proofs of the statements about the invariant of the machine (10_state.md rules R16, R17; 40_step_cycle.md rule R82;
60_exceptions.md rules R161, R169). -/

namespace Sys2Proof.Machine

/-- Where no record is latched, the invariant is about memory and `pc` alone. -/
theorem State.inv_of_unfaulted {s : State} (hf : s.fault = none) (hm : s.mem.wf = true) (hl : 0 ≤ s.pc.toInt)
    (hh : s.pc.toInt ≤ 8) : s.Inv where
  memWf := hm
  pcLow := hl
  pcHigh := hh
  haltedNotFaulted := fun _ => hf
  recordLegal := by simp [hf]
  pcOfRecord := by simp [hf]

/-- A fatal outcome taken by a RUNNING machine keeps the invariant when its record is one rule R161 allows and, where
its cause is about `pc`, records `pc`. -/
theorem State.inv_raise {s : State} (hr : s.running) (hm : s.mem.wf = true) (hl : 0 ≤ s.pc.toInt)
    (hh : s.pc.toInt ≤ 8) {c : FaultCause} {mn : Option Mnemonic} {a : Word}
    (hlegal : FaultRecord.legal ⟨c, mn, a⟩)
    (hpc : c = .pcOutOfBounds ∨ c = .pcOverflowDuringFetch → s.pc = a) : (s.raise c mn a).Inv where
  memWf := hm
  pcLow := hl
  pcHigh := hh
  haltedNotFaulted := by simp [hr.1]
  recordLegal := by simpa using hlegal
  pcOfRecord := by simpa using hpc

/-- A meaning run by a RUNNING machine whose `pc` is at a cell leads to a state with the invariant: the final advance
ends at 8 at most, JMP at its checked operand, and a fatal outcome has a legal record. -/
theorem ExecEffect.inv {s t : State} {i : Instr} (h : ExecEffect s i t) (hr : s.running) (hm : s.mem.wf = true)
    (p : Addr) (hp : s.pc.toInt = p.val) : t.Inv := by
  have hlt := addr_lt p
  rcases h.fault_cases with hf | ⟨c, a, rfl, ho, hc⟩
  · have hf : t.fault = none := hf.trans hr.2
    have hwf : t.mem.wf = true := by
      cases h with
      | sta a q _ => exact Memory.write_wf _ _ _ hm
      | _ => exact hm
    rcases h.pc_cases hf with ⟨_, hpc⟩ | ⟨a, q, _, ha, hpc⟩
    · have hadv : t.pc.toInt = p.val + 1 := hpc ▸ toInt_add_one s.pc p.val hp (by omega)
      exact State.inv_of_unfaulted hf hwf (by omega) (by omega)
    · have hq := addr_lt q
      rw [← hpc] at ha
      exact State.inv_of_unfaulted hf hwf (by omega) (by omega)
  · refine State.inv_raise hr hm (by omega) (by omega) ?_ ?_
    · rcases hc with ⟨rfl, hmn⟩ | ⟨rfl, hmn⟩ <;> exact ⟨⟨_, rfl, hmn⟩, ho⟩
    · rcases hc with ⟨rfl, _⟩ | ⟨rfl, _⟩ <;> simp

/-- Settles O44, by the ways a step can give a next state: the fatal outcomes of S2 and S6 record the 8 that `pc`
stands at, and a fetched instruction runs from a `pc` that names a cell. -/
theorem stepKeepsTheInvariant : Obligations.StepKeepsTheInvariant := by
  intro s t hinv hstep
  have hm := hinv.memWf
  have hl := hinv.pcLow
  have hh := hinv.pcHigh
  cases next_case s t hstep with
  | warned => exact hinv
  | outOfBounds hr ho =>
    have h8 : s.pc = 8 := word_of_toInt s.pc 8 (by rcases ho with h | h <;> omega)
    exact State.inv_raise hr hm hl hh ⟨rfl, h8⟩ (fun _ => rfl)
  | overflow hr hp mn hlook =>
    have h8 : s.countStep.advancePc.pc = 8 := by
      rw [State.advancePc_pc, State.countStep_pc, hp]
      rfl
    have hmn : mn.consumesOperand = true := by
      simpa [hlook] using consumesOperand_lookupOp (s.mem.read 7)
    exact State.inv_raise (s := s.countStep.advancePc) hr hm (by rw [h8]; decide) (by rw [h8]; decide)
      ⟨⟨mn, rfl, hmn⟩, rfl⟩ (fun _ => h8)
  | oneCell _ hr p hp _ _ he => exact he.inv hr hm p hp
  | twoCells _ hr p q hp hq _ _ _ _ _ he =>
    have hadv : s.countStep.advancePc.pc.toInt = q.val := by
      have := addr_lt p
      rw [hq]
      exact toInt_add_one s.pc p.val hp (by omega)
    exact he.inv hr hm q hadv

/-- Settles O45: the reset memory is canonical, `pc` is 0 and nothing is latched. -/
theorem resetHasTheInvariant : Obligations.ResetHasTheInvariant :=
  State.inv_of_unfaulted rfl State.reset_memory_wf (by decide) (by decide)

/-- Settles O46: an image's memory is canonical, and a load leaves `pc` and the latch as reset left them. -/
theorem launchHasTheInvariant : Obligations.LaunchHasTheInvariant := by
  intro image accInit s hs
  rw [State.launch_eq s image accInit hs]
  exact State.inv_of_unfaulted rfl (Memory.ofImage_wf image) resetHasTheInvariant.pcLow resetHasTheInvariant.pcHigh

/-- Settles O47, by induction over the run: the step keeps the invariant (O44) and counts at most once, and once while
the machine is RUNNING. -/
theorem runsFromLaunchKeepTheInvariant : Obligations.RunsFromLaunchKeepTheInvariant := by
  intro image accInit s t k hs hreach
  refine hreach.induction (P := fun k u => u.Inv ∧ u.steps ≤ k ∧ (u.running → u.steps = k)) ?_ ?_
  · have hsteps : s.steps = 0 := by rw [State.launch_eq s image accInit hs]; rfl
    exact ⟨launchHasTheInvariant image accInit s hs, hsteps.le, fun _ => hsteps⟩
  · rintro k u v ⟨hinv, hle, heq⟩ hstep
    obtain ⟨hle', hrun⟩ := (next_case u v hstep).steps_cases
    refine ⟨stepKeepsTheInvariant u v hinv hstep, by omega, fun hv => ?_⟩
    obtain ⟨hu, hcount⟩ := hrun hv
    rw [hcount, heq hu]

end Sys2Proof.Machine
end

section
/-! Proofs of the statements about reset, load and the entry point (10_state.md rules R20 to R27). -/

namespace Sys2Proof.Machine

/-- Settles O1: the reset memory lists no cell. -/
theorem resetMemoryIsZero : Obligations.ResetMemoryIsZero :=
  fun a => Memory.read_of_not_listed State.reset.mem a (by simp [State.reset])

/-- Settles O2: whatever the session was, Reset makes it the session after reset. -/
theorem resetRestoresEveryElement : Obligations.ResetRestoresEveryElement :=
  fun _ => ⟨rfl, rfl, resetMemoryIsZero, rfl, rfl, rfl, rfl, rfl⟩

/-- Settles O3: values in range are loaded without change, and load writes no other element. -/
theorem loadSetsImageAndAccumulator : Obligations.LoadSetsImageAndAccumulator := by
  intro image accInit himage hacc
  refine ⟨_, (State.load_eq _ _ _).trans (if_pos ⟨himage, hacc⟩), fun i => ?_, ?_, rfl, rfl, rfl, rfl⟩
  · rw [Memory.read_ofImage]
    exact wrapW_of_inRange _ (himage i).1 (himage i).2
  · exact wrapW_of_inRange _ hacc.1 hacc.2

/-- A session that waits for its load holds the reset machine. -/
def Session.AwaitsInReset (c : Session) : Prop := c.phase = .awaitingLoad → c.machine = State.reset

/-- Every host operation keeps it: only Reset leads to the waiting phase, and while waiting only an accepted load
changes the machine, which launches it (rules R181, R185). -/
theorem Session.apply_awaitsInReset (c : Session) (op : HostOp) (h : c.AwaitsInReset) :
    (c.apply op).2.AwaitsInReset := by
  obtain ⟨phase, machine⟩ := c
  cases op with
  | reset => exact fun _ => rfl
  | observe => exact h
  | step =>
    cases phase with
    | awaitingLoad => exact h
    | launched => exact fun hp => by cases hp
  | load image accInit =>
    cases phase with
    | launched => exact h
    | awaitingLoad =>
      cases hload : machine.load image accInit with
      | none => simpa [Session.apply, hload] using h
      | some s => simp [Session.apply, hload, Session.AwaitsInReset]

/-- An accepted load finds the session waiting, and leaves it launched with the loaded machine. -/
theorem Session.load_accepted (c : Session) (image : Vector Int Config.memSize) (accInit : Int)
    (h : (c.apply (.load image accInit)).1 = .loadAccepted) :
    c.phase = .awaitingLoad ∧ ∃ s, c.machine.load image accInit = some s ∧
      (c.apply (.load image accInit)).2 = ⟨.launched, s⟩ := by
  obtain ⟨phase, machine⟩ := c
  cases phase with
  | launched => cases h
  | awaitingLoad =>
    cases hload : machine.load image accInit with
    | none => simp [Session.apply, hload] at h
    | some s => exact ⟨rfl, s, rfl, by simp [Session.apply, hload]⟩

/-- Settles O6, by induction over the host's operations: a waiting session holds the reset machine, and a load is
accepted only by a waiting one. -/
theorem loadIsAcceptedOnlyInResetState : Obligations.LoadIsAcceptedOnlyInResetState := by
  rintro ops image accInit c rfl hacc
  have hwait := List.foldlRecOn (motive := Session.AwaitsInReset) ops (fun d op => (d.apply op).2)
    (fun _ => rfl : Session.reset.AwaitsInReset) (fun d hd op _ => d.apply_awaitsInReset op hd)
  obtain ⟨hphase, s, hload, hc⟩ := Session.load_accepted _ image accInit hacc
  have hreset := hwait hphase
  rw [hreset] at hload
  exact ⟨hreset, by rw [hc]; exact hload, by rw [hc]⟩

/-- The eight cells from address 0 always decode: the opcode cell has a cell after it. -/
theorem Memory.decode_cells (m : Memory) : ∃ i rest, decode m.cells = .ok (i, rest) := by
  have h0 : m.cells = m.read 0 :: m.cells.drop 1 := m.drop_cells 0
  rcases decode_cons (m.read 0) (m.cells.drop 1) with ⟨_, _, h⟩ | ⟨_, _, _, _, _, h⟩ | ⟨_, _, hnil, _⟩
  · exact ⟨_, _, h0 ▸ h⟩
  · exact ⟨_, _, h0 ▸ h⟩
  · have h1 : m.cells.drop 1 = m.read 1 :: m.cells.drop 2 := m.drop_cells 1
    simp [h1] at hnil

/-- Settles O7: `pc` is 0 in a launch state, so the step runs what the cells from address 0 decode to. -/
theorem entryPointIsAddressZero : Obligations.EntryPointIsAddressZero := by
  refine ⟨rfl, fun image accInit s hs => ?_⟩
  obtain ⟨hr, hpc⟩ : s.running ∧ s.pc = 0 := by
    rw [State.launch_eq s image accInit hs]
    exact ⟨⟨rfl, rfl⟩, rfl⟩
  obtain ⟨i, rest, hd⟩ := s.mem.decode_cells
  refine ⟨hpc, i, rest, hd, ?_⟩
  have hstep := step_of_decode s hr 0 (by rw [hpc]; rfl) i rest hd
  rwa [hpc, zero_add] at hstep

end Sys2Proof.Machine
end

section
/-! Proofs of the statements about who reads and writes `acc`, `pc`, `steps` and `halted` (10_state.md rules R13, R15,
R17, R18). -/

namespace Sys2Proof.Machine

/-- No meaning reads `steps` or `halted` (rules R17, R18): from another count and flag it has the same effect, leaves the
count as it found it, and leaves the flag it leaves now where it finds the one it finds now. -/
theorem ExecEffect.with_steps_halted {s t : State} {i : Instr} (h : ExecEffect s i t) (n : Nat) (b : Bool) :
    ∃ b', ExecEffect { s with steps := n, halted := b } i { t with steps := n, halted := b' } ∧
      (b = s.halted → b' = t.halted) := by
  cases h with
  | noOp _ h => exact ⟨b, .noOp _ h, id⟩
  | hlt => exact ⟨true, .hlt, fun _ => rfl⟩
  | sta a p h => exact ⟨b, .sta a p h, id⟩
  | lda a p h => exact ⟨b, .lda a p h, id⟩
  | add a p h => exact ⟨b, .add a p h, id⟩
  | sub a p h => exact ⟨b, .sub a p h, id⟩
  | jmp a p h => exact ⟨b, .jmp a p h, id⟩
  | target _ a hi ho => exact ⟨b, .target _ a hi ho, id⟩
  | undefined _ a hi ho => exact ⟨b, .undefined _ a hi ho, id⟩

/-- From another step count alone, nothing but the count differs. -/
theorem ExecEffect.with_steps {s t : State} {i : Instr} (h : ExecEffect s i t) (n : Nat) :
    ExecEffect { s with steps := n } i { t with steps := n } := by
  obtain ⟨b, he, hb⟩ := h.with_steps_halted n s.halted
  cases hb rfl
  exact he

/-- No stage of a step reads the step count: from another count the step goes the same way and counts the same. -/
theorem NextCase.with_steps {s t : State} (h : NextCase s t) (n : Nat) :
    ∃ k, k ≤ 1 ∧ t.steps = s.steps + k ∧ NextCase { s with steps := n } { t with steps := n + k } := by
  cases h with
  | warned hf hh => exact ⟨0, by omega, rfl, .warned hf hh⟩
  | outOfBounds hr ho => exact ⟨0, by omega, rfl, .outOfBounds hr ho⟩
  | overflow hr hp mn hl => exact ⟨1, le_rfl, rfl, .overflow (s := { s with steps := n }) hr hp mn hl⟩
  | oneCell _ hr p hp mn hl he => exact ⟨1, le_rfl, he.steps_eq, .oneCell _ hr p hp mn hl (he.with_steps (n + 1))⟩
  | twoCells _ hr p q hp hq mn hl i hi hm he =>
    exact ⟨1, le_rfl, he.steps_eq, .twoCells _ hr p q hp hq mn hl i hi hm (he.with_steps (n + 1))⟩

/-- Settles O25: the way the step goes does not depend on the count. -/
theorem stepCounterHasNoInfluence : Obligations.StepCounterHasNoInfluence := by
  intro s t n hstep
  obtain ⟨k, hk, hcount, hcase⟩ := (next_case s t hstep).with_steps n
  exact ⟨k, hk, hcount, step_of_nextCase hcase⟩

/-- The mnemonics of the one-cell opcodes consume no operand (rule R54). -/
theorem Mnemonic.consumesOperand_eq_false {mn : Mnemonic}
    (h : mn ∈ [Mnemonic.nop, .not, .shr, .shl, .ror, .rol, .hlt, .unknown]) : mn.consumesOperand = false := by
  fin_cases h <;> rfl

/-- The other mnemonics than JMP of the two-cell opcodes consume one, and are not JMP (rule R54). -/
theorem Mnemonic.consumesOperand_and_ne_jmp {mn : Mnemonic}
    (h : mn ∈ [Mnemonic.sta, .lda, .add, .or, .and, .sub] ∨ mn.isCondJumpStub = true) :
    mn.consumesOperand = true ∧ mn ≠ .jmp := by
  rcases h with h | h
  · fin_cases h <;> exact ⟨rfl, by decide⟩
  · refine ⟨by simp [Mnemonic.consumesOperand, h], ?_⟩
    rintro rfl
    cases h

/-- Settles O26: a one-cell opcode ends with the final advance; an operand-consuming one has advanced to its operand
cell before, and ends with the final advance or, for JMP, at the operand. -/
theorem programCounterMovesByTheInstruction : Obligations.ProgramCounterMovesByTheInstruction := by
  rintro s t p mn hr hp rfl hstep hf
  have hcons := consumesOperand_lookupOp (s.mem.read p)
  cases next_case s t hstep with
  | warned _ hh => simp [hr.1] at hh
  | outOfBounds _ _ => simp at hf
  | overflow _ _ _ _ => simp at hf
  | oneCell _ _ p' hp' mn hl he =>
    obtain rfl : p' = p := Fin.ext (by omega)
    rw [hl] at hcons ⊢
    have hpc : t.pc = s.pc + 1 := by
      rcases oneCell_effect _ _ _ _ hl he with ⟨_, rfl⟩ | ⟨_, rfl⟩ <;> rfl
    refine ⟨fun _ => hpc, fun h => ?_, fun h => ?_⟩
    · cases hcons.symm.trans (Mnemonic.consumesOperand_and_ne_jmp h).1
    · subst h
      cases hcons
  | twoCells _ _ p' q hp' hq mn hl i hi hm he =>
    obtain rfl : p' = p := Fin.ext (by omega)
    rw [hl] at hcons ⊢
    refine ⟨fun h => (nomatch hcons.symm.trans (Mnemonic.consumesOperand_eq_false h)), ?_⟩
    rcases he.pc_cases hf with ⟨hj, hpc⟩ | ⟨a, r, rfl, ha, hpc⟩
    · refine ⟨fun _ => ?_, fun h => absurd (hm.trans h) hj⟩
      calc t.pc = s.pc + 1 + 1 := hpc
        _ = s.pc + 2 := add_assoc s.pc 1 1
    · subst hm
      have hlt := addr_lt r
      have hread : s.mem.read q = a := by cases hi; rfl
      exact ⟨fun h => absurd rfl (Mnemonic.consumesOperand_and_ne_jmp h).2,
        fun _ => ⟨q, hq, by rw [hpc, hread], by rw [hpc]; omega, by rw [hpc]; omega⟩⟩

/-- A meaning of another instruction than STA, ADD and SUB does not read `acc`: from another `acc` it changes every
other element the same way, and LDA sets `acc` to the same cell. -/
theorem ExecEffect.with_acc {s t : State} {i : Instr} (h : ExecEffect s i t) (v : Word)
    (hi : i.mnemonic ∉ [Mnemonic.sta, .add, .sub]) :
    ∃ t', ExecEffect { s with acc := v } i t' ∧ { t' with acc := t.acc } = t ∧
      (i.mnemonic = .lda → t.fault = none → t'.acc = t.acc) := by
  cases h with
  | noOp _ h => exact ⟨_, .noOp _ h, rfl, fun hl => by simp [hl] at h⟩
  | hlt => exact ⟨_, .hlt, rfl, fun hl => by cases hl⟩
  | lda a p h => exact ⟨_, .lda a p h, rfl, fun _ _ => rfl⟩
  | jmp a p h => exact ⟨_, .jmp a p h, rfl, fun hl => by cases hl⟩
  | sta | add | sub => simp [Instr.mnemonic] at hi
  | target _ a h ho => exact ⟨_, .target _ a h ho, rfl, fun _ hf => by simp at hf⟩
  | undefined _ a h ho => exact ⟨_, .undefined _ a h ho, rfl, fun _ hf => by simp at hf⟩

/-- Settles O29: who writes `acc` and who does not read it are read off the effects, and the effects of the four that
do read or write it name the cell. -/
theorem accumulatorReadersAndWriters : Obligations.AccumulatorReadersAndWriters := by
  refine ⟨fun i s t h hne => ?_, fun i s v hi => ?_, fun s a c ha => ⟨?_, ?_, fun hl hh => ?_, fun hl hh => ?_⟩⟩
  · exact (effect_of_exec i s t h).acc_eq.resolve_left hne
  · obtain ⟨t, ht, he⟩ := exec_effect i s
    obtain ⟨t', he', hrest, hlda⟩ := he.with_acc v hi
    exact ⟨t, t', ht, exec_of_effect he', hrest, fun hl _ => hlda hl⟩
  · exact ⟨_, exec_of_effect (.sta a c ha), by simp [Memory.read_write], rfl⟩
  · exact ⟨_, exec_of_effect (.lda a c ha), rfl⟩
  · exact ⟨_, exec_of_effect (.add a c ha), wrapW_of_inRange _ hl hh⟩
  · exact ⟨_, exec_of_effect (.sub a c ha), wrapW_of_inRange _ hl hh⟩

/-- The step of a machine that fetches HLT (rule R91). -/
theorem step_hlt (s : State) (hf : s.fetchesOpcode 0xF0) :
    step s = .next { s with steps := s.steps + 1, halted := true, pc := s.pc + 1 } :=
  step_of_fetchesOpcode s 0xF0 .hlt hf rfl

/-- A step that sets `halted` fetched HLT. -/
theorem fetchesOpcode_of_halts (s t : State) (hstep : step s = .next t) (hs : s.halted = false)
    (ht : t.halted = true) : s.fetchesOpcode 0xF0 := by
  cases next_case s t hstep with
  | warned | outOfBounds | overflow => simp [hs] at ht
  | oneCell _ hr p hp mn hl he =>
    rcases oneCell_effect _ _ _ _ hl he with ⟨rfl, _⟩ | ⟨_, rfl⟩
    · exact ⟨hr, p, hp, lookupOp_eq_hlt _ (by rw [hl])⟩
    · simp [hs] at ht
  | twoCells _ hr p q hp hq mn hl i hi hm he =>
    rcases he.halted_eq with h | ⟨rfl, _⟩
    · simp [h, hs] at ht
    · have hcons := consumesOperand_lookupOp (s.mem.read p)
      rw [hl, ← hm] at hcons
      cases hcons

/-- Settles O30: HLT's step, the stopped machine after it, and the inversion of a step that sets the flag; a halted
machine steps to itself, and no effect depends on the flag. -/
theorem haltedIsSetByHltAloneAndIsFinal : Obligations.HaltedIsSetByHltAloneAndIsFinal := by
  refine ⟨rfl, fun s hf => ⟨step_hlt s hf, fun t ht => ?_⟩, fetchesOpcode_of_halts, fun s t hstep hh => ?_,
    fun _ => rfl, fun i s b => ?_⟩
  · have hfault : s.fault = none := hf.1.2
    cases (step_hlt s hf).symm.trans ht
    exact ⟨stepOutcome_halted _ hfault rfl, run_halted _ hfault rfl⟩
  · cases next_case s t hstep with
    | warned => exact hh
    | outOfBounds hr | overflow hr | oneCell _ hr | twoCells _ hr => simp [hr.1] at hh
  · obtain ⟨t, ht, he⟩ := exec_effect i s
    obtain ⟨b', he', _⟩ := he.with_steps_halted s.steps b
    exact ⟨t, _, ht, exec_of_effect he', by rw [← he.steps_eq]⟩

end Sys2Proof.Machine
end

section
/-! Proofs of the statements about memory (20_memory.md rules R34, R38, R40). -/

namespace Sys2Proof.Machine

/-- Only STA writes memory (rule R34). -/
theorem ExecEffect.mem_eq {s t : State} {i : Instr} (h : ExecEffect s i t) :
    t.mem = s.mem ∨ i.mnemonic = .sta := by
  cases h with
  | sta => exact .inr rfl
  | _ => exact .inl (by simp)

/-- A step that changes memory fetched STA: the stages before the meaning write no cell, a one-cell opcode writes none,
and STA is looked up from its own opcode alone. -/
theorem fetchesPair_sta_of_mem_ne (s t : State) (hstep : step s = .next t) (hne : t.mem ≠ s.mem) :
    ∃ a, s.fetchesPair 0x10 a := by
  cases next_case s t hstep with
  | warned | outOfBounds | overflow => exact absurd (by simp) hne
  | oneCell _ _ p _ mn hl he =>
    rcases oneCell_effect _ _ _ _ hl he with ⟨_, rfl⟩ | ⟨_, rfl⟩ <;> exact absurd (by simp) hne
  | twoCells _ hr p q hp hq mn hl i _ hm he =>
    have hmn : mn = .sta := hm.symm.trans (he.mem_eq.resolve_left hne)
    have hop : s.mem.read p = 0x10 := lookupOp_eq_sta _ (by rw [hl, hmn])
    exact ⟨s.mem.read q, hr, p, q, hp, hq, hop, rfl⟩

/-- Settles O28: a read after a write is `Memory.read_write`, a write updates no other field, and a step that changes
memory fetched STA. -/
theorem onlyStaWritesMemory : Obligations.OnlyStaWritesMemory := by
  refine ⟨fun s a v => ⟨?_, fun b hb => ?_, rfl, rfl, rfl, rfl, rfl⟩, fetchesPair_sta_of_mem_ne⟩
  · simp [Memory.read_write]
  · simp [Memory.read_write, hb]

/-- The step of a machine that fetches STA with an operand that names a cell (rule R100). -/
theorem step_sta (s : State) (a : Word) (c : Addr) (hf : s.fetchesPair 0x10 a) (ha : a.toInt = c.val) :
    step s = .next (s.countStep.advancePc.writeMem c s.acc).advancePc :=
  (step_of_fetchesPair s 0x10 a .sta hf rfl).trans (exec_of_effect (.sta a c ha))

/-- Settles O43: STA's two advances bring `pc` to the cell just written, which reads as the stored `acc`. -/
theorem storeIsSeenByTheNextFetch : Obligations.StoreIsSeenByTheNextFetch := by
  intro s a hf ha h7
  have ⟨hr, p, _, hp, _⟩ := hf
  obtain ⟨c, hc⟩ : ∃ c : Addr, c.val = p.val + 2 := ⟨⟨p.val + 2, show p.val + 2 < 8 by omega⟩, rfl⟩
  refine ⟨_, step_sta s a c hf (by omega), hr, c, ?_, ?_⟩
  · have hadv : (s.pc + 1).toInt = (p.val + 1 : Nat) := toInt_add_one s.pc p.val hp (by omega)
    have hadv2 : (s.pc + 1 + 1).toInt = (p.val + 1 : Nat) + 1 := toInt_add_one _ _ hadv (by omega)
    show (s.pc + 1 + 1).toInt = c.val
    omega
  · simp [Memory.read_write]

end Sys2Proof.Machine
end

section
/-! Proofs of the statements about the encoding (30_encoding.md rules R50 to R59). -/

namespace Sys2Proof

/-- Settles O8: the opcode cell of each row's instruction selects that row, and the raw cell of a well-formed UNKNOWN
selects none. -/
theorem decodeOfEncodeIsTheInstruction : Obligations.DecodeOfEncodeIsTheInstruction := by
  intro i rest hi
  cases i with
  | unknown v =>
    have hl : lookupOp v = (.unknown, false) := Laws.OpcodeCell.unknown v hi
    simp [encode, decode, hl, assemble]
  | _ => rfl

/-- Settles O10, by O8: each list of cells is the encoding of its instruction. -/
theorem wordsFromTheTableDecode : Obligations.WordsFromTheTableDecode := by
  have h (i : Instr) (hi : i.wellFormed = true) := decodeOfEncodeIsTheInstruction i [] hi
  exact ⟨h .nop rfl, h (.sta 5) rfl, h (.sub (-1)) rfl, h (.jmp 4) rfl, h (.jz 5) rfl, h .shl rfl, h .hlt rfl,
    h (.unknown 0x110) rfl⟩

/-- An instruction's length counts its cells (rules R50, R51, R52). -/
theorem Instr.length_eq_length_encode (i : Instr) : i.length = (encode i).length := by
  cases i <;> rfl

/-- What is assembled from a cell's lookup is well-formed: UNKNOWN is assembled only where no row has the cell's value. -/
theorem assemble_wellFormed (op a : Word) : (assemble (lookupOp op).1 op a).wellFormed = true := by
  rcases lookupOp_cases op with ⟨r, hr, _, _, hl⟩ | ⟨_, hnone, hl⟩
  · rw [hl]
    fin_cases hr <;> rfl
  · rw [hl]
    exact Option.isNone_iff_eq_none.mpr hnone

/-- The encoding of what is assembled from a cell's lookup is that cell, and the operand where it consumes one. -/
theorem encode_assemble (op a : Word) :
    encode (assemble (lookupOp op).1 op a) = if (lookupOp op).2 then [op, a] else [op] := by
  rcases lookupOp_cases op with ⟨r, hr, hv, _, hl⟩ | ⟨_, _, hl⟩
  · have hop := word_of_row op r hv
    rw [hl]
    fin_cases hr <;> subst hop <;> rfl
  · rw [hl]
    rfl

/-- What the decoder reads is assembled from the lookup of the opcode cell, which decides whether it takes a further
cell (rule R59). -/
theorem decode_ok {op : Word} {cells rest : List Word} {i : Instr} (h : decode (op :: cells) = .ok (i, rest)) :
    ∃ a, i = assemble (lookupOp op).1 op a ∧ cells = if (lookupOp op).2 then a :: rest else rest := by
  rcases decode_cons op cells with ⟨mn, hl, hok⟩ | ⟨mn, a, rest', hl, hcells, hok⟩ | ⟨_, _, _, herr⟩
  · cases hok.symm.trans h
    exact ⟨0, by rw [hl], by simp [hl]⟩
  · cases hok.symm.trans h
    exact ⟨a, by rw [hl], by simpa [hl] using hcells⟩
  · cases herr.symm.trans h

/-- Settles O9: what the decoder reads is assembled from a lookup, so it is well-formed and its encoding is the cells
taken. -/
theorem encodeOfDecodeIsTheCells : Obligations.EncodeOfDecodeIsTheCells := by
  intro cells i rest hd
  cases cells with
  | nil => cases hd
  | cons op cells =>
    obtain ⟨a, rfl, rfl⟩ := decode_ok hd
    refine ⟨assemble_wellFormed op a, ?_, Instr.length_eq_length_encode _⟩
    rw [encode_assemble]
    split <;> rfl

/-- No two rows of the table share a value or a mnemonic (rules R54, R55). -/
theorem opTable_pairwise : opTable.Pairwise (fun r q => r.value ≠ q.value ∧ r.mnemonic ≠ q.mnemonic) := by decide

/-- A row is determined by its value. -/
theorem opTable_row_of_value {r q : OpRow} (hr : r ∈ opTable) (hq : q ∈ opTable) (h : r.value = q.value) : r = q :=
  List.inj_on_of_nodup_map (List.pairwise_map.mpr (opTable_pairwise.imp And.left)) hr hq h

/-- A row is determined by its mnemonic. -/
theorem opTable_row_of_mnemonic {r q : OpRow} (hr : r ∈ opTable) (hq : q ∈ opTable)
    (h : r.mnemonic = q.mnemonic) : r = q :=
  List.inj_on_of_nodup_map (List.pairwise_map.mpr (opTable_pairwise.imp And.right)) hr hq h

/-- UNKNOWN has no row. -/
theorem opTable_mnemonic_ne_unknown : ∀ r ∈ opTable, r.mnemonic ≠ .unknown := by decide

/-- A cell with a row's value selects that row (rule R53). -/
theorem lookupOp_of_row {v : Word} {r : OpRow} (hr : r ∈ opTable) (hv : v.toInt = r.value) :
    lookupOp v = (r.mnemonic, r.consumes) := by
  rcases lookupOp_cases v with ⟨q, hq, hqv, _, hl⟩ | ⟨hnone, _, _⟩
  · rwa [opTable_row_of_value hr hq (hv.symm.trans hqv.symm)]
  · exact absurd hv.symm (hnone r hr)

/-- A cell that looks up as a row's mnemonic has that row's value. -/
theorem toInt_of_lookupOp {v : Word} {r : OpRow} (hr : r ∈ opTable) (h : (lookupOp v).1 = r.mnemonic) :
    v.toInt = r.value := by
  rcases lookupOp_cases v with ⟨q, hq, hqv, _, hl⟩ | ⟨_, _, hl⟩
  · rw [hl] at h
    rw [opTable_row_of_mnemonic hr hq h.symm, hqv]
  · rw [hl] at h
    exact absurd h.symm (opTable_mnemonic_ne_unknown r hr)

/-- Settles O11: a lookup answers a row of the cell's value or UNKNOWN, and rows share neither value nor mnemonic. -/
theorem cellSelectsARowByExactValue : Obligations.CellSelectsARowByExactValue :=
  ⟨rfl, opTable_pairwise, fun _ _ hr => ⟨fun h => toInt_of_lookupOp hr (congrArg Prod.fst h), lookupOp_of_row hr⟩⟩

/-- A cell that has the value of no row is looked up as UNKNOWN (rule R57). -/
theorem lookupOp_of_no_row {v : Word} (h : ∀ r ∈ opTable, r.value ≠ v.toInt) : lookupOp v = (.unknown, false) := by
  rcases lookupOp_cases v with ⟨r, hr, hv, _, _⟩ | ⟨_, _, hl⟩
  · exact absurd hv (h r hr)
  · exact hl

/-- Settles O12: the decoder fails only where an operand cell is missing, and UNKNOWN, like NOP, is the final advance. -/
theorem everyCellValueDecodes : Obligations.EveryCellValueDecodes := by
  refine ⟨fun op a rest => ?_, fun op rest hno => ⟨?_, fun s => ⟨rfl, rfl⟩⟩⟩
  · rcases decode_cons op (a :: rest) with ⟨_, _, h⟩ | ⟨_, _, _, _, _, h⟩ | ⟨_, _, hnil, _⟩
    · exact ⟨_, _, h⟩
    · exact ⟨_, _, h⟩
    · cases hnil
  · simp [decode, lookupOp_of_no_row hno, assemble]

/-- The values of the operand-consuming rows, in the order of the table (rules R54, R59). -/
def consumingValues : List Int := (opTable.filter (·.consumes)).map (·.value)

/-- A cell consumes the next one exactly when its value is that of an operand-consuming row. -/
theorem lookupOp_consumes_iff (op : Word) : (lookupOp op).2 = true ↔ op.toInt ∈ consumingValues := by
  simp only [consumingValues, List.mem_map, List.mem_filter]
  constructor
  · intro hc
    rcases lookupOp_cases op with ⟨r, hr, hv, _, hl⟩ | ⟨_, _, hl⟩
    · rw [hl] at hc
      exact ⟨r, ⟨hr, hc⟩, hv⟩
    · rw [hl] at hc
      cases hc
  · rintro ⟨r, ⟨hr, hc⟩, hv⟩
    rw [lookupOp_of_row hr hv.symm]
    exact hc

/-- Settles O13: the listed values are those of the operand-consuming rows. -/
theorem lengthIsDecidedByTheOpcode : Obligations.LengthIsDecidedByTheOpcode := by
  intro op cells i rest hd
  obtain ⟨a, rfl, rfl⟩ := decode_ok hd
  rw [assemble_length]
  refine ⟨fun hmem => ?_, fun hmem => ?_⟩
  · have hc : (lookupOp op).2 = true := (lookupOp_consumes_iff op).mpr hmem
    simp [hc]
  · have hc : ¬ (lookupOp op).2 = true := mt (lookupOp_consumes_iff op).mp hmem
    simp [hc]

end Sys2Proof
end

section
/-! Proofs of the statement about the Inspector (30_encoding.md rules R62, R63). -/

namespace Sys2Proof.Machine

/-- A line has the form the opcode table gives its opcode cell (rule R62). -/
def DumpLine.Classified (l : DumpLine) : Prop :=
  match l with
  | .withOperand mn op _ => lookupOp op = (mn, true)
  | .named mn op => lookupOp op = (mn, false) ∧ mn ≠ .unknown
  | .bare v => lookupOp v = (.unknown, false)

/-- The ways a sweep can go: `sweep_sweeps` ties it to `sweep`. -/
inductive Sweeps : List Word → Option (List DumpLine) → Prop
  | done : Sweeps [] (some [])
  | unpaired (v : Word) (h : (lookupOp v).2 = true) : Sweeps [v] none
  | line (l : DumpLine) (hl : l.Classified) {rest : List Word} {o : Option (List DumpLine)} (h : Sweeps rest o) :
      Sweeps (l.shown ++ rest) (prependLine l o)

/-- A cell that consumes no operand is shown by a line of its own, also where it is the last one. -/
theorem sweep_oneCell (v : Word) (cells : List Word) (mn : Mnemonic) (h : lookupOp v = (mn, false)) :
    ∃ l : DumpLine, l.Classified ∧ l.shown = [v] ∧ sweep (v :: cells) = prependLine l (sweep cells) := by
  by_cases hmn : mn = .unknown
  · subst hmn
    exact ⟨.bare v, h, rfl, by cases cells <;> simp [sweep, h, prependLine]⟩
  · exact ⟨.named mn v, ⟨h, hmn⟩, rfl, by cases cells <;> simp [sweep, h, prependLine]⟩

/-- Every sweep goes one of these ways, by the recursion of `sweep`. -/
theorem sweep_sweeps (cells : List Word) : Sweeps cells (sweep cells) := by
  match cells with
  | [] => exact .done
  | v :: cells =>
    rcases h : lookupOp v with ⟨mn, _ | _⟩
    · obtain ⟨l, hl, hshown, hsweep⟩ := sweep_oneCell v cells mn h
      rw [hsweep, ← List.singleton_append, ← hshown]
      exact .line l hl (sweep_sweeps cells)
    · match cells with
      | [] =>
        have hsweep : sweep [v] = none := by simp [sweep, h]
        exact hsweep ▸ .unpaired v (by rw [h])
      | w :: rest =>
        have hsweep : sweep (v :: w :: rest) = prependLine (.withOperand mn v w) (sweep rest) := by simp [sweep, h]
        exact hsweep ▸ .line (.withOperand mn v w) h (sweep_sweeps rest)

/-- A sweep with an output shows each cell once and in order, by lines of the form the opcode table gives. -/
theorem Sweeps.output {cells : List Word} {o : Option (List DumpLine)} (h : Sweeps cells o) (ls : List DumpLine)
    (ho : o = some ls) : ls.flatMap DumpLine.shown = cells ∧ ∀ l ∈ ls, l.Classified := by
  induction h generalizing ls with
  | done =>
    cases ho
    simp
  | unpaired => cases ho
  | line l hl _ ih =>
    obtain ⟨ls', rfl, rfl⟩ := Option.map_eq_some_iff.mp ho
    obtain ⟨hshown, hall⟩ := ih ls' rfl
    exact ⟨by rw [List.flatMap_cons, hshown], List.forall_mem_cons.mpr ⟨hl, hall⟩⟩

/-- A sweep without an output ends at a last cell that consumes an operand (rule R63). -/
theorem Sweeps.no_output {cells : List Word} {o : Option (List DumpLine)} (h : Sweeps cells o) (ho : o = none) :
    ∃ v, cells.getLast? = some v ∧ (lookupOp v).2 = true := by
  induction h with
  | done => cases ho
  | unpaired v hv => exact ⟨v, rfl, hv⟩
  | line l _ _ ih =>
    obtain ⟨v, hlast, hv⟩ := ih (Option.map_eq_none_iff.mp ho)
    exact ⟨v, by simp [List.getLast?_append, hlast], hv⟩

/-- Settles O50: a memory's sweep is one of its cells, the last of which is that of address 7. -/
theorem inspectorShowsEveryCellOnce : Obligations.InspectorShowsEveryCellOnce := by
  refine ⟨fun m ls h => ?_, fun m h => ?_⟩
  · obtain ⟨hshown, hall⟩ := (sweep_sweeps m.cells).output ls h
    refine ⟨hshown, fun l hl => ⟨?_, ?_, ?_⟩⟩
    · rintro mn op a rfl
      exact hall _ hl
    · rintro mn op rfl
      exact hall _ hl
    · rintro v rfl
      exact hall _ hl
  · obtain ⟨v, hlast, hv⟩ := (sweep_sweeps m.cells).no_output h
    have h7 : m.cells.getLast? = some (m.read 7) := rfl
    rwa [Option.some.inj (h7.symm.trans hlast)]

end Sys2Proof.Machine
end

section
/-! Proofs of the statements about the step cycle (40_step_cycle.md rules R70 to R84). -/

namespace Sys2Proof.Machine

/-- A FAULTED machine answers its record again (rule R71). -/
theorem step_faulted (s : State) (r : FaultRecord) (hf : s.fault = some r) : step s = .fault (.latched r) := by
  simp [step, prepare, hf]

/-- Settles O16: the first step of any run already answers the record. -/
theorem faultedStepReturnsTheRecordAgain : Obligations.FaultedStepReturnsTheRecordAgain := by
  intro s r hf
  have hs := step_faulted s r hf
  exact ⟨by simp [stepOutcome, hs], fun n => by simp only [Host.Core.run, core, hs]⟩

/-- Settles O15: the rules of a halted machine for one step and for a run. -/
theorem haltedStepWarnsAndChangesNothing : Obligations.HaltedStepWarnsAndChangesNothing :=
  fun s hf hh => ⟨stepOutcome_halted s hf hh, run_halted s hf hh⟩

/-- Settles O18: the program-counter check comes before the count. -/
theorem programCounterOutOfBoundsIsFatal : Obligations.ProgramCounterOutOfBoundsIsFatal := step_outOfBounds

/-- The cells from `pc` on begin at the cell it names. -/
theorem State.cellsFromPc_of_toInt (s : State) (p : Addr) (hp : s.pc.toInt = p.val) :
    s.cellsFromPc = s.mem.cells.drop p.val := by
  simp [State.cellsFromPc, boundsCheck_of_toInt _ _ hp]

/-- Where `pc` names no cell there is nothing to decode. -/
theorem State.cellsFromPc_of_outside (s : State) (ho : outside s.pc) : s.cellsFromPc = [] := by
  simp [State.cellsFromPc, (boundsCheck_eq_none _).mpr ho]

/-- A word is the address of a cell or lies outside memory. -/
theorem addr_or_outside (v : Word) : (∃ p : Addr, v.toInt = p.val) ∨ outside v := by
  rcases hb : boundsCheck v with _ | p
  · exact .inr ((boundsCheck_eq_none v).mp hb)
  · exact .inl ⟨p, (boundsCheck_eq_some v p).mp hb⟩

/-- The address of a cell does not lie outside memory. -/
theorem not_outside_of_toInt {v : Word} {p : Addr} (hp : v.toInt = p.val) : ¬ outside v := by
  have := addr_lt p
  rintro (h | h) <;> omega

/-- Settles O14: cells decode only from a `pc` that names a cell. -/
theorem stepRunsTheDecodedInstruction : Obligations.StepRunsTheDecodedInstruction := by
  intro s i rest hr hd
  rcases addr_or_outside s.pc with ⟨p, hp⟩ | ho
  · exact step_of_decode s hr p hp i rest (s.cellsFromPc_of_toInt p hp ▸ hd)
  · rw [s.cellsFromPc_of_outside ho] at hd
    cases hd

/-- Settles O19: the mnemonics that consume an operand are those the table says consume the next cell. -/
theorem operandFetchPastMemoryIsFatal : Obligations.OperandFetchPastMemoryIsFatal := by
  rintro s mn hr hp rfl hc
  have hl : lookupOp (s.mem.read 7) = ((lookupOp (s.mem.read 7)).1, true) :=
    Prod.ext rfl ((consumesOperand_lookupOp _).symm.trans hc)
  have h8 : s.countStep.advancePc.pc = 8 := by
    rw [State.advancePc_pc, State.countStep_pc, hp]
    rfl
  rw [step_overflow s hr hp _ hl, ← h8]
  rfl

/-- Settles O20: the target check is the first stage after the operand fetch. -/
theorem checkedTargetOutsideMemoryIsFatal : Obligations.CheckedTargetOutsideMemoryIsFatal := by
  intro s op a mn hmem hf ho
  fin_cases hmem
  · exact (step_of_fetchesPair s _ a .sta hf rfl).trans (exec_of_effect (.target (.sta a) a (by simp) ho))
  · exact (step_of_fetchesPair s _ a .lda hf rfl).trans (exec_of_effect (.target (.lda a) a (by simp) ho))
  · exact (step_of_fetchesPair s _ a .jmp hf rfl).trans (exec_of_effect (.target (.jmp a) a (by simp) ho))

/-- A step with a next state is no step of a FAULTED machine (rule R71). -/
theorem fault_eq_none_of_step {s t : State} (h : step s = .next t) : s.fault = none := by
  rcases step_latched_or_next s with ⟨r, _, hs⟩ | ⟨hf, _⟩
  · cases hs.symm.trans h
  · exact hf

/-- A RUNNING machine that halts does so by HLT, which latches no record. -/
theorem fault_eq_none_of_halts {s t : State} (h : step s = .next t) (hr : s.running) (ht : t.halted = true) :
    t.fault = none := by
  cases (step_hlt s (fetchesOpcode_of_halts s t h hr.1 ht)).symm.trans h
  exact hr.2

/-- Settles O23: the next state of a RUNNING machine is halted without a record, or not halted with one or without. -/
theorem stateMachineHasThreeStates : Obligations.StateMachineHasThreeStates := by
  intro s t h
  have hf := fault_eq_none_of_step h
  refine ⟨hf, fun hh => ?_, fun hr => ?_⟩
  · cases (step_halted s hf hh).symm.trans h
    rfl
  · cases ht : t.halted with
    | true => exact .inr (.inl ⟨rfl, fault_eq_none_of_halts h hr ht⟩)
    | false =>
      by_cases hft : t.fault = none
      · exact .inl ⟨ht, hft⟩
      · exact .inr (.inr ⟨rfl, hft⟩)

/-- Which steps count: those of a RUNNING machine whose `pc` names a cell (rules R72, R73, R74). -/
theorem NextCase.steps_eq {s t : State} (h : NextCase s t) :
    ((s.halted = true ∨ outside s.pc) ∧ t.steps = s.steps) ∨
    (s.halted = false ∧ ¬ outside s.pc ∧ t.steps = s.steps + 1) := by
  cases h with
  | warned _ hh => exact .inl ⟨.inl hh, rfl⟩
  | outOfBounds _ ho => exact .inl ⟨.inr ho, rfl⟩
  | overflow hr hp => exact .inr ⟨hr.1, by rw [hp]; decide, rfl⟩
  | oneCell _ hr _ hp _ _ he | twoCells _ hr _ _ hp _ _ _ _ _ _ he =>
    exact .inr ⟨hr.1, not_outside_of_toInt hp, he.steps_eq⟩

/-- Settles O24: a step of a machine that is not FAULTED has a next state, and which steps count is read off the ways it
can go. -/
theorem stepCounterCountsExecutedInstructions : Obligations.StepCounterCountsExecutedInstructions := by
  refine fun s => ⟨fun hr hin => ?_, fun t h hstop => ?_⟩
  · obtain ⟨t, h⟩ := (everyUnfaultedStepHasANextState s).1 hr.2
    rcases (next_case s t h).steps_eq with ⟨hh | ho, _⟩ | ⟨_, _, hsteps⟩
    · simp [hr.1] at hh
    · exact absurd ho hin
    · exact ⟨t, h, hsteps⟩
  · rcases (next_case s t h).steps_eq with ⟨_, hsteps⟩ | ⟨hh, hin, _⟩
    · exact hsteps
    · rcases hstop with hh' | ho
      · cases hh.symm.trans hh'
      · exact absurd ho hin

/-- Only an operand outside memory makes a meaning latch a record, and only in the five that use it as an address (rules
R78, R113). -/
theorem ExecEffect.operand_of_fault {s t : State} {i : Instr} (h : ExecEffect s i t) (hs : s.fault = none)
    (ht : t.fault ≠ none) : ∃ a, outside a ∧ i ∈ [Instr.sta a, .lda a, .add a, .sub a, .jmp a] := by
  cases h with
  | target _ a hi ho | undefined _ a hi ho =>
    refine ⟨a, ho, ?_⟩
    simp only [List.mem_cons] at hi ⊢
    tauto
  | _ => exact absurd hs ht

/-- Settles O27: every meaning has one of the effects, and each clause is a rule of the effects. -/
theorem finalAdvanceIsUncheckedAndByOne : Obligations.FinalAdvanceIsUncheckedAndByOne := by
  intro i s hs
  obtain ⟨t, h, he⟩ := exec_effect i s
  refine ⟨t, h, he.operand_of_fault hs, fun hf => ⟨fun hi => ?_, ?_, ?_⟩⟩
  · rcases he.pc_cases hf with ⟨_, hpc⟩ | ⟨a, _, hj, _⟩
    · exact hpc
    · exact absurd hj (hi a)
  · rintro a rfl
    rcases he.pc_cases hf with ⟨hj, _⟩ | ⟨_, _, hj, _, hpc⟩
    · exact absurd rfl hj
    · cases hj
      exact hpc
  · rintro rfl
    cases h
    rfl

end Sys2Proof.Machine
end

section
/-! Proofs of the statements about the driving loop (40_step_cycle.md rules R83, R84, 70_reset_and_hazards.md rule
R183). -/

namespace Sys2Proof.Machine

/-- A step whose next state has a record latched returns that record (rule R161). -/
theorem stepOutcome_of_fault {s t : State} {r : FaultRecord} (h : step s = .next t) (ht : t.fault = some r) :
    stepOutcome s = (.fault r, t) := by
  simp [stepOutcome, h, ht]

/-- The step of a RUNNING machine that latches none completes. -/
theorem stepOutcome_of_no_fault {s t : State} (hr : s.running) (h : step s = .next t) (ht : t.fault = none) :
    stepOutcome s = (.ok, t) := by
  simp [stepOutcome, h, ht, hr.1]

/-- The loop returns a halted machine's report, whatever the fuel (rule R83). -/
theorem drive_halted (n : Nat) {s : State} (hh : s.halted = true) : drive n s = (.soft s.report, s) := by
  cases n <;> simp [drive, hh]

/-- Without fuel the loop returns a RUNNING machine as it is. -/
theorem drive_zero {s : State} (hr : s.running) : drive 0 s = (.unfinished, s) := by
  simp [drive, hr.1]

/-- The loop ends at the first step that returns a fault (rule R183). -/
theorem drive_succ_of_fault (n : Nat) {s t : State} {r : FaultRecord} (hr : s.running) (h : step s = .next t)
    (ht : t.fault = some r) : drive (n + 1) s = (.hard r, t) := by
  simp [drive, hr.1, stepOutcome_of_fault h ht]

/-- The loop goes on after a step that returns none. -/
theorem drive_succ_of_no_fault (n : Nat) {s t : State} (hr : s.running) (h : step s = .next t) (ht : t.fault = none) :
    drive (n + 1) s = drive n t := by
  simp [drive, hr.1, stepOutcome_of_no_fault hr h ht]

/-- How the driving loop ends within `n` steps: the cases of rules R83 and R183, one constructor per turn it can take. -/
inductive DriveCase : Nat → State → RunEnd → State → Prop where
  | soft (n : Nat) (s : State) (hf : s.fault = none) (hh : s.halted = true) : DriveCase n s (.soft s.report) s
  | unfinished (s : State) (hr : s.running) : DriveCase 0 s .unfinished s
  | hard (n : Nat) (s t : State) (r : FaultRecord) (hr : s.running) (h : step s = .next t) (ht : t.fault = some r) :
      DriveCase (n + 1) s (.hard r) t
  | more (n : Nat) (s t u : State) (e : RunEnd) (hr : s.running) (h : step s = .next t) (hu : DriveCase n t e u) :
      DriveCase (n + 1) s e u

/-- The loop on a machine that is not FAULTED goes one of these ways. -/
theorem drive_case (n : Nat) (s : State) (hf : s.fault = none) : DriveCase n s (drive n s).1 (drive n s).2 := by
  induction n generalizing s with
  | zero =>
    cases hh : s.halted with
    | true => simpa only [drive_halted 0 hh] using .soft 0 s hf hh
    | false => simpa only [drive_zero ⟨hh, hf⟩] using .unfinished s ⟨hh, hf⟩
  | succ n ih =>
    cases hh : s.halted with
    | true => simpa only [drive_halted _ hh] using .soft _ s hf hh
    | false =>
      have hr : s.running := ⟨hh, hf⟩
      obtain ⟨t, h⟩ := (everyUnfaultedStepHasANextState s).1 hf
      cases ht : t.fault with
      | some r => simpa only [drive_succ_of_fault n hr h ht] using .hard n s t r hr h ht
      | none => simpa only [drive_succ_of_no_fault n hr h ht] using .more n s t _ _ hr h (ih t ht)

/-- The states a run passes before its end are RUNNING, when its first state is and those of the rest are. -/
theorem running_before_succ {s t : State} {k : Nat} (hr : s.running) (h : step s = .next t)
    (ht : ∀ j u, j < k → t.reaches j u → u.running) : ∀ j u, j < k + 1 → s.reaches j u → u.running
  | 0, u, _, hu => by
    cases hu
    exact hr
  | j + 1, u, hj, hu => ht j u (by omega) ((run_succ s t j h).symm.trans hu)

/-- Settles O48, by induction on the turns of the loop. -/
theorem drivingLoopEndsAtTheFirstHaltOrFault : Obligations.DrivingLoopEndsAtTheFirstHaltOrFault := by
  intro n s t e hf hd
  have hc : DriveCase n s e t := by simpa only [hd] using drive_case n s hf
  clear hf hd
  induction hc with
  | soft n s hf hh =>
    refine ⟨0, by omega, rfl, by simp, ?_, nofun, nofun⟩
    rintro r ⟨⟩
    exact ⟨hh, hf, rfl⟩
  | unfinished s hr => exact ⟨0, by omega, rfl, by simp, nofun, nofun, fun _ => ⟨rfl, hr⟩⟩
  | hard n s t r hr h ht =>
    have hh : t.halted = false :=
      Bool.eq_false_iff.mpr fun hh => by simp [fault_eq_none_of_halts h hr hh] at ht
    refine ⟨1, by omega, run_succ s t 0 h, running_before_succ hr h (by simp), nofun, ?_, nofun⟩
    rintro r ⟨⟩
    exact ⟨hh, ht⟩
  | more n s t u e hr h _ ih =>
    obtain ⟨k, hk, hreach, hrun, hsoft, hhard, hunf⟩ := ih
    exact ⟨k + 1, by omega, (run_succ s t k h).trans hreach, running_before_succ hr h hrun, hsoft, hhard,
      fun he => ⟨by rw [(hunf he).1], (hunf he).2⟩⟩

/-- A JMP to its own address counts one step and changes nothing else (rule R120). -/
theorem step_jumpToItself (s : State) (hf : s.fetchesPair 0x80 s.pc) :
    step s = .next { s with steps := s.steps + 1 } := by
  have ⟨_, p, _, hp, _⟩ := hf
  exact (step_of_fetchesPair s 0x80 s.pc .jmp hf rfl).trans (exec_of_effect (.jmp s.pc p hp))

/-- Settles O49, by induction on the steps: the state after one is again about to jump to itself. -/
theorem jumpToItselfNeverEnds : Obligations.JumpToItselfNeverEnds := by
  rintro s _ hf rfl n
  induction n generalizing s with
  | zero => exact ⟨rfl, drive_zero hf.1⟩
  | succ n ih =>
    have h := step_jumpToItself s hf
    obtain ⟨hrun, hdrive⟩ := ih { s with steps := s.steps + 1 } hf
    rw [run_succ s _ n h, drive_succ_of_no_fault n hf.1 h hf.1.2, hrun, hdrive]
    simp only [add_assoc, add_comm 1 n, and_self]

end Sys2Proof.Machine
end

section
/-! Proofs of the statements about NOP, UNKNOWN and HLT, and of what each meaning does (41_nop_hlt.md rules R90 to
R92). -/

namespace Sys2Proof.Machine

/-- NOP, UNKNOWN and the stubs are none of the six instructions with an effect of their own (rules R90, R92, R137,
R150). -/
theorem Mnemonic.not_effective {mn : Mnemonic}
    (h : mn ∈ [Mnemonic.nop, .unknown] ∨ mn.isLogicShiftStub = true ∨ mn.isCondJumpStub = true) :
    mn ∉ [Mnemonic.sta, .lda, .add, .sub, .jmp, .hlt] := by
  intro heff
  fin_cases heff <;> exact absurd h (by decide)

/-- Settles O31: the effect of an instruction that is none of the six is the final advance. -/
theorem nopUnknownAndStubsOnlyAdvance : Obligations.NopUnknownAndStubsOnlyAdvance :=
  fun i _ h => exec_of_effect (.noOp i (Mnemonic.not_effective h))

/-- Settles O32: each clause is the instruction's effect for an operand that names a cell. -/
theorem effectiveInstructionsComplete : Obligations.EffectiveInstructionsComplete := by
  intro s a t ha
  refine ⟨⟨_, exec_of_effect (.sta a t ha), ?_, fun b hb => ?_, rfl, rfl, rfl, rfl, rfl⟩,
    exec_of_effect (.lda a t ha), exec_of_effect (.add a t ha), exec_of_effect (.sub a t ha),
    exec_of_effect (.jmp a t ha), exec_of_effect .hlt⟩
  · simp [Memory.read_write]
  · simp [Memory.read_write, hb]

/-- Settles O34: the values listed are those of the opcode table, so the cell selects no row and is looked up as
UNKNOWN, whose meaning is the final advance. -/
theorem unknownStep : Obligations.UnknownStep := by
  intro s v hf hv
  have hno : ∀ r ∈ opTable, r.value ≠ v.toInt := fun r hr hrv => by
    have hmem : r.value ∈ opTable.map (·.value) := List.mem_map_of_mem hr
    exact hv (hrv ▸ hmem)
  exact step_of_fetchesOpcode s v .unknown hf (lookupOp_of_no_row hno)

/-- The step of a machine that fetches NOP (rule R90). -/
theorem step_nop (s : State) (hf : s.fetchesOpcode 0) :
    step s = .next { s with steps := s.steps + 1, pc := s.pc + 1 } :=
  step_of_fetchesOpcode s 0 .nop hf rfl

/-- The step of a RUNNING machine that has run past the last cell faults (rule R73). -/
theorem stepOutcome_at_eight (s : State) (hr : s.running) (hp : s.pc = 8) :
    ∃ r, (stepOutcome s).1 = .fault r ∧ r.cause = .pcOutOfBounds := by
  have ho : outside s.pc := by
    rw [hp]
    decide
  exact ⟨⟨.pcOutOfBounds, none, s.pc⟩, by rw [stepOutcome_of_fault (step_outOfBounds s hr ho) rfl], rfl⟩

/-- The word of a cell's address stands for that address. -/
theorem toInt_ofNat_addr (p : Addr) : (BitVec.ofNat Config.W p.val).toInt = p.val := by
  fin_cases p <;> rfl

/-- The state that `n` NOPs lead to from address 0: `steps` has counted them and `pc` is `n` (rule R90). -/
def State.afterNops (s : State) (n : Nat) : State :=
  { s with steps := s.steps + n, pc := BitVec.ofNat Config.W n }

theorem State.afterNops_zero (s : State) (hp : s.pc = 0) : s.afterNops 0 = s := by
  cases s
  cases hp
  rfl

/-- The NOP at address `p` is one more of them. -/
theorem step_afterNops (s : State) (hr : s.running) (hz : ∀ a, s.mem.read a = 0) (p : Addr) :
    step (s.afterNops p.val) = .next (s.afterNops (p.val + 1)) := by
  have hf : (s.afterNops p.val).fetchesOpcode 0 := ⟨hr, p, toInt_ofNat_addr p, hz p⟩
  rw [step_nop _ hf, State.afterNops, State.afterNops, BitVec.ofNat_add]
  rfl

/-- A RUNNING machine at address 0 of an all-zero memory executes a NOP per step, up to the end of memory (rule R90). -/
theorem reaches_afterNops (s : State) (hr : s.running) (hp : s.pc = 0) (hz : ∀ a, s.mem.read a = 0) (n : Nat)
    (hn : n ≤ 8) : s.reaches n (s.afterNops n) := by
  induction n with
  | zero =>
    rw [s.afterNops_zero hp]
    rfl
  | succ n ih => exact reaches_succ _ _ _ n (ih (by omega)) (step_afterNops s hr hz ⟨n, hn⟩)

/-- Settles O33: NOP's step, the fault of a machine at 8, and the run of eight NOPs. -/
theorem nopStep : Obligations.NopStep := by
  refine ⟨rfl, fun s hf => ⟨step_nop s hf, fun h7 t ht => ?_⟩, fun s hr hp hz => ⟨?_, ?_⟩⟩
  · cases (step_nop s hf).symm.trans ht
    have h8 : s.pc + 1 = 8 := by
      rw [h7]
      rfl
    exact ⟨h8, stepOutcome_at_eight _ hf.1 h8⟩
  · exact reaches_afterNops s hr hp hz 8 le_rfl
  · exact stepOutcome_at_eight _ hr rfl

end Sys2Proof.Machine
end

section
/-! Proofs of the statements about STA and LDA (42_memory_transfer.md rules R100, R101), and the two faults of the
instructions that check their operand, as the host sees them. -/

namespace Sys2Proof.Machine

/-- The final advance after the advance to the operand cell: a completed two-cell instruction moves `pc` by two (rules
R77, R80). -/
theorem State.advancePc_advancePc (s : State) : s.advancePc.advancePc = { s with pc := s.pc + 2 } :=
  congrArg (fun v => { s with pc := v }) (add_assoc s.pc 1 1)

/-- An operand-consuming opcode in the last cell returns PC_OVERFLOW_DURING_FETCH (rules R77, R161). -/
theorem stepOutcome_overflow (s : State) (hr : s.running) (hp : s.pc = 7) (op : Word) (hop : s.mem.read 7 = op)
    (mn : Mnemonic) (hl : lookupOp op = (mn, true)) :
    ∃ r, (stepOutcome s).1 = .fault r ∧ r.cause = .pcOverflowDuringFetch := by
  subst hop
  exact ⟨⟨.pcOverflowDuringFetch, some mn, 8⟩, by rw [stepOutcome_of_fault (step_overflow s hr hp mn hl) rfl], rfl⟩

/-- STA, LDA and JMP with an operand outside memory return TARGET_OUT_OF_RANGE with that operand; the state they leave
is the one at the operand cell, with the record latched (rules R78, R161, R169). -/
theorem stepOutcome_target (s : State) (op a : Word) (mn : Mnemonic)
    (hmem : (op, mn) ∈ [((0x10 : Word), Mnemonic.sta), (0x20, .lda), (0x80, .jmp)]) (hf : s.fetchesPair op a)
    (ho : outside a) :
    stepOutcome s =
      (.fault ⟨.targetOutOfRange, some mn, a⟩, s.countStep.advancePc.raise .targetOutOfRange (some mn) a) :=
  stepOutcome_of_fault (checkedTargetOutsideMemoryIsFatal s op a mn hmem hf ho) rfl

/-- Settles O35: the completed step writes one cell after the fetch of both own cells, so a read of the memory after it
is `Memory.read_write`, whatever the operand names; the two faults are those of a checked operand. -/
theorem staStep : Obligations.StaStep := by
  refine ⟨rfl, fun s a c hf ha => ?_, fun s hr hp hop => stepOutcome_overflow s hr hp 0x10 hop .sta rfl,
    fun s a hf ho => ?_⟩
  · refine ⟨_, step_sta s a c hf ha, ?_, fun b hb => ?_, rfl, ?_, rfl, rfl, hf.1.2⟩
    · simp [Memory.read_write]
    · simp [Memory.read_write, hb]
    · exact congrArg State.pc s.advancePc_advancePc
  · rw [stepOutcome_target s 0x10 a .sta (by simp) hf ho]
    exact ⟨rfl, rfl⟩

/-- The step of a machine that fetches LDA with an operand that names a cell (rule R101). -/
theorem step_lda (s : State) (a : Word) (c : Addr) (hf : s.fetchesPair 0x20 a) (ha : a.toInt = c.val) :
    step s = .next { s with steps := s.steps + 1, acc := s.mem.read c, pc := s.pc + 2 } := by
  calc step s = .next (s.countStep.setAcc (s.mem.read c)).advancePc.advancePc :=
        (step_of_fetchesPair s 0x20 a .lda hf rfl).trans (exec_of_effect (.lda a c ha))
    _ = .next { s with steps := s.steps + 1, acc := s.mem.read c, pc := s.pc + 2 } :=
        congrArg _ (State.advancePc_advancePc _)

/-- Settles O36: the completed step is `step_lda`, and the two faults are those of a checked operand. -/
theorem ldaStep : Obligations.LdaStep := by
  refine ⟨rfl, step_lda, fun s hr hp hop => stepOutcome_overflow s hr hp 0x20 hop .lda rfl, fun s a hf ho => ?_⟩
  rw [stepOutcome_target s 0x20 a .lda (by simp) hf ho]
  exact ⟨rfl, rfl⟩

end Sys2Proof.Machine
end

section
/-! Proofs of the statements about ADD and SUB (43_arithmetic.md rules R110 to R113). -/

namespace Sys2Proof.Machine

/-- Settles O21: no stage checks the operand, so the first to meet it is the read itself. -/
theorem uncheckedOperandIsAnUndefinedRead : Obligations.UncheckedOperandIsAnUndefinedRead := by
  refine ⟨rfl, fun s op a mn hmem hf ho => ?_⟩
  fin_cases hmem
  · exact (step_of_fetchesPair s _ a .add hf rfl).trans (exec_of_effect (.undefined (.add a) a (by simp) ho))
  · exact (step_of_fetchesPair s _ a .sub hf rfl).trans (exec_of_effect (.undefined (.sub a) a (by simp) ho))

/-- The step of a machine that fetches ADD with an operand that names a cell (rules R110, R112). -/
theorem step_add (s : State) (a : Word) (c : Addr) (hf : s.fetchesPair 0x30 a) (ha : a.toInt = c.val) :
    step s = .next
      { s with steps := s.steps + 1, acc := wrapW (s.acc.toInt + (s.mem.read c).toInt), pc := s.pc + 2 } :=
  calc step s = .next (s.countStep.setAcc (wrapW (s.acc.toInt + (s.mem.read c).toInt))).advancePc.advancePc :=
        (step_of_fetchesPair s 0x30 a .add hf rfl).trans (exec_of_effect (.add a c ha))
    _ = _ := congrArg _ (State.advancePc_advancePc _)

/-- The step of a machine that fetches SUB with an operand that names a cell (rules R111, R112). -/
theorem step_sub (s : State) (a : Word) (c : Addr) (hf : s.fetchesPair 0x70 a) (ha : a.toInt = c.val) :
    step s = .next
      { s with steps := s.steps + 1, acc := wrapW (s.acc.toInt - (s.mem.read c).toInt), pc := s.pc + 2 } :=
  calc step s = .next (s.countStep.setAcc (wrapW (s.acc.toInt - (s.mem.read c).toInt))).advancePc.advancePc :=
        (step_of_fetchesPair s 0x70 a .sub hf rfl).trans (exec_of_effect (.sub a c ha))
    _ = _ := congrArg _ (State.advancePc_advancePc _)

/-- Settles O37: `acc` becomes `wrap_W` of the exact result, which is congruent to it and is it where it fits. -/
theorem addSubStep : Obligations.AddSubStep := by
  refine fun s a c ha => ⟨fun hf => ?_, fun hf => ?_⟩
  · exact ⟨_, step_add s a c hf ha, wrapW_congr _, wrapW_of_inRange _⟩
  · exact ⟨_, step_sub s a c hf ha, wrapW_congr _, wrapW_of_inRange _⟩

/-- `wrap_W` of the exact sum of two words is their sum as words, modulo `2^W`. -/
theorem wrapW_toInt_add_toInt (v w : Word) : wrapW (v.toInt + w.toInt) = v + w := by
  rw [wrapW, BitVec.ofInt_add, BitVec.ofInt_toInt, BitVec.ofInt_toInt]

/-- ADD with an operand that names a cell adds that cell to `acc` as words and leaves memory as it was (rule R110). -/
theorem exec_add (s : State) (a : Word) (c : Addr) (ha : a.toInt = c.val) :
    exec (.add a) s = .next (s.setAcc (s.acc + s.mem.read c)).advancePc := by
  rw [← wrapW_toInt_add_toInt]
  exact exec_of_effect (.add a c ha)

/-- Settles O39: a wrapped sum is a sum of words, and that is associative. -/
theorem addTwiceIsAddOfTheSum : Obligations.AddTwiceIsAddOfTheSum := by
  intro s x y z i j k hx hy hz hsum
  rw [wrapW_toInt_add_toInt] at hsum
  refine ⟨_, _, _, exec_add s x i hx, exec_add _ y j hy, exec_add s z k hz, ?_⟩
  calc s.acc + s.mem.read i + s.mem.read j = s.acc + (s.mem.read i + s.mem.read j) := add_assoc _ _ _
    _ = s.acc + s.mem.read k := by rw [hsum]

end Sys2Proof.Machine
end

section
/-! Proof of the statement about JMP (44_jump.md rule R120). -/

namespace Sys2Proof.Machine

/-- The step of a machine that fetches JMP with an operand that names a cell: it sets `pc` and has no final advance
(rule R120). -/
theorem step_jmp (s : State) (a : Word) (c : Addr) (hf : s.fetchesPair 0x80 a) (ha : a.toInt = c.val) :
    step s = .next { s with steps := s.steps + 1, pc := a } :=
  (step_of_fetchesPair s 0x80 a .jmp hf rfl).trans (exec_of_effect (.jmp a c ha))

/-- Settles O40: an operand that is not outside memory names a cell, so the completed step is `step_jmp`; the two faults
are those of a checked operand. -/
theorem jmpStep : Obligations.JmpStep := by
  refine ⟨rfl, fun s a hf hin => ?_, fun s hr hp hop => stepOutcome_overflow s hr hp 0x80 hop .jmp rfl,
    fun s a hf ho => ?_⟩
  · obtain ⟨c, ha⟩ := (addr_or_outside a).resolve_right hin
    exact step_jmp s a c hf ha
  · rw [stepOutcome_target s 0x80 a .jmp (by simp) hf ho]
    exact ⟨rfl, rfl⟩

end Sys2Proof.Machine
end

section
/-! Proof of the statement about the logic and shift stubs (45_stub_logic_shift.md rule R137), from the two step rules of
the instructions whose only effect is the final advance. -/

namespace Sys2Proof.Machine

/-- The step of a machine that fetches a two-cell instruction with no effect of its own: the operand is fetched and not
used, whatever it is (rules R137, R150). -/
theorem step_noOp_of_fetchesPair (s : State) (op a : Word) (mn : Mnemonic) (hf : s.fetchesPair op a)
    (hl : lookupOp op = (mn, true)) (hmn : mn ∉ [Mnemonic.sta, .lda, .add, .sub, .jmp, .hlt]) :
    step s = .next { s with steps := s.steps + 1, pc := s.pc + 2 } :=
  have hno : (assemble mn op a).mnemonic ∉ _ := (assemble_mnemonic mn op a).symm ▸ hmn
  calc step s = .next s.countStep.advancePc.advancePc :=
        (step_of_fetchesPair s op a mn hf hl).trans (exec_of_effect (.noOp _ hno))
    _ = _ := congrArg _ (State.advancePc_advancePc _)

/-- The step of a machine that fetches a one-cell instruction with no effect of its own (rules R90, R92, R137). -/
theorem step_noOp_of_fetchesOpcode (s : State) (op : Word) (mn : Mnemonic) (hf : s.fetchesOpcode op)
    (hl : lookupOp op = (mn, false)) (hmn : mn ∉ [Mnemonic.sta, .lda, .add, .sub, .jmp, .hlt]) :
    step s = .next { s with steps := s.steps + 1, pc := s.pc + 1 } :=
  have hno : (assemble mn op 0).mnemonic ∉ _ := (assemble_mnemonic mn op 0).symm ▸ hmn
  (step_of_fetchesOpcode s op mn hf hl).trans (exec_of_effect (.noOp _ hno))

/-- The values of OR and AND consume the next cell and select a mnemonic with no effect of its own (rules R54, R137). -/
theorem lookupOp_twoCellStub {op : Word} (h : op ∈ [(0x40 : Word), 0x50]) :
    ∃ mn, lookupOp op = (mn, true) ∧ mn ∉ [Mnemonic.sta, .lda, .add, .sub, .jmp, .hlt] := by
  fin_cases h
  · exact ⟨.or, rfl, by decide⟩
  · exact ⟨.and, rfl, by decide⟩

/-- The values of NOT and of the four shifts and rotates consume no next cell and select a mnemonic with no effect of its
own (rules R54, R137). -/
theorem lookupOp_oneCellStub {op : Word} (h : op ∈ [(0x60 : Word), 0xE0, 0xE1, 0xE2, 0xE3]) :
    ∃ mn, lookupOp op = (mn, false) ∧ mn ∉ [Mnemonic.sta, .lda, .add, .sub, .jmp, .hlt] := by
  fin_cases h
  · exact ⟨.not, rfl, by decide⟩
  · exact ⟨.shr, rfl, by decide⟩
  · exact ⟨.shl, rfl, by decide⟩
  · exact ⟨.ror, rfl, by decide⟩
  · exact ⟨.rol, rfl, by decide⟩

/-- Settles O41: each of the seven values selects a mnemonic with no effect of its own, so its step is the count, the
operand fetch of the two-cell ones and the final advance; at address 7 that fetch overflows, as for any two-cell
opcode. -/
theorem logicAndShiftStubsDoNothing : Obligations.LogicAndShiftStubsDoNothing := by
  refine ⟨fun s op a hop hf => ?_, fun s op hop hf => ?_, fun s mn hr hp hl _ => ?_⟩
  · obtain ⟨mn, hl, hmn⟩ := lookupOp_twoCellStub hop
    exact step_noOp_of_fetchesPair s op a mn hf hl hmn
  · obtain ⟨mn, hl, hmn⟩ := lookupOp_oneCellStub hop
    exact step_noOp_of_fetchesOpcode s op mn hf hl hmn
  · exact stepOutcome_overflow s hr hp _ rfl mn hl

end Sys2Proof.Machine
end

section
/-! Proof of the statement about the conditional jumps (46_stub_cond_jumps.md rule R150): the opcode table has a row for
each of them, and as two-cell mnemonics with no effect of their own they obey the step rule of OR and AND. No lemma
depends on the values of decision D3, beyond that the rows have distinct words. -/

namespace Sys2Proof.Machine

/-- Every mnemonic but UNKNOWN has a row (rules R54, R57). -/
theorem exists_row_of_mnemonic {mn : Mnemonic} (h : mn ≠ .unknown) : ∃ r ∈ opTable, r.mnemonic = mn := by
  cases mn with
  | unknown => exact absurd rfl h
  | _ => simp [opTable]

/-- The value of every row is in the range of a cell (rules R53, R54). -/
theorem toInt_ofInt_row_value : ∀ r ∈ opTable, (BitVec.ofInt Config.W r.value).toInt = r.value := by decide

/-- A cell that looks up as an operand-consuming mnemonic takes the next cell (rule R59). -/
theorem lookupOp_of_consumesOperand {op : Word} (h : (lookupOp op).1.consumesOperand = true) :
    lookupOp op = ((lookupOp op).1, true) :=
  Prod.ext rfl ((consumesOperand_lookupOp op).symm.trans h)

/-- Every operand-consuming mnemonic has an opcode: the word of its row. -/
theorem exists_lookupOp_of_consumesOperand {mn : Mnemonic} (h : mn.consumesOperand = true) :
    ∃ op, lookupOp op = (mn, true) := by
  have hne : mn ≠ .unknown := by
    rintro rfl
    cases h
  obtain ⟨r, hr, rfl⟩ := exists_row_of_mnemonic hne
  have hmn : (lookupOp (BitVec.ofInt Config.W r.value)).1 = r.mnemonic :=
    congrArg Prod.fst (lookupOp_of_row hr (toInt_ofInt_row_value r hr))
  exact ⟨_, hmn ▸ lookupOp_of_consumesOperand (hmn.symm ▸ h)⟩

/-- The conditional jumps, OR and AND take an operand and have no effect of their own (rules R137, R150). -/
theorem Mnemonic.consumesOperand_and_not_effective {mn : Mnemonic}
    (h : mn.isCondJumpStub = true ∨ mn = .or ∨ mn = .and) :
    mn.consumesOperand = true ∧ mn ∉ [Mnemonic.sta, .lda, .add, .sub, .jmp, .hlt] := by
  rcases h with h | rfl | rfl
  · exact ⟨(Mnemonic.consumesOperand_and_ne_jmp (.inr h)).1, Mnemonic.not_effective (.inr (.inr h))⟩
  · exact ⟨rfl, Mnemonic.not_effective (.inr (.inl rfl))⟩
  · exact ⟨rfl, Mnemonic.not_effective (.inr (.inl rfl))⟩

/-- Settles O42: each of the ten has a row that takes an operand; a step of one, like one of OR or AND, is the count, the
operand fetch and the final advance; at address 7 that fetch overflows, as for any two-cell opcode. -/
theorem conditionalJumpsFallThrough : Obligations.ConditionalJumpsFallThrough := by
  refine ⟨fun mn hmn => ?_, fun s op a hop hf => ?_, fun s mn hr hp hl _ => ?_⟩
  · exact exists_lookupOp_of_consumesOperand (Mnemonic.consumesOperand_and_not_effective (.inl hmn)).1
  · obtain ⟨hcons, hno⟩ := Mnemonic.consumesOperand_and_not_effective hop
    exact step_noOp_of_fetchesPair s op a _ hf (lookupOp_of_consumesOperand hcons) hno
  · exact stepOutcome_overflow s hr hp _ rfl mn hl

end Sys2Proof.Machine
end

section
/-! Proof of the statement about precise faults (60_exceptions.md rules R168, R169). -/

namespace Sys2Proof.Machine

/-- How a step can latch a record (rule R169): the program-counter check raises it in the state as it was, and every
other check once the step has counted and `pc` stands at the operand cell. A one-cell opcode raises none. -/
theorem NextCase.eq_raise_of_fault {s t : State} (h : NextCase s t) (hs : s.fault = none) (ht : t.fault ≠ none) :
    t = s.raise .pcOutOfBounds none s.pc ∨
    ∃ c mn a, c ≠ .pcOutOfBounds ∧ t = s.countStep.advancePc.raise c (some mn) a := by
  cases h with
  | warned => exact absurd hs ht
  | outOfBounds => exact .inl rfl
  | overflow _ _ mn => exact .inr ⟨_, mn, 8, by decide, rfl⟩
  | oneCell _ _ _ _ mn hl he =>
    rcases oneCell_effect _ _ _ mn hl he with ⟨_, rfl⟩ | ⟨_, rfl⟩ <;> exact absurd hs ht
  | twoCells _ _ _ _ _ _ _ _ i _ _ he =>
    rcases he.fault_cases with hf | ⟨c, a, rfl, _, hc⟩
    · exact absurd (hf.trans hs) ht
    · have hne : c ≠ .pcOutOfBounds := by rcases hc with ⟨rfl, _⟩ | ⟨rfl, _⟩ <;> decide
      exact .inr ⟨c, i.mnemonic, a, hne, rfl⟩

/-- Settles O22: a step that latches a record is a `raise`, which keeps every element but the latch, of the state as it
was or of the one that has counted and advanced once. -/
theorem faultsArePrecise : Obligations.FaultsArePrecise := by
  intro s t r hs hstep ht
  rcases (next_case s t hstep).eq_raise_of_fault hs (by simp [ht]) with rfl | ⟨c, mn, a, hc, rfl⟩
  · cases ht
    exact ⟨rfl, rfl, rfl, fun _ => ⟨rfl, rfl⟩, fun hne => absurd rfl hne⟩
  · cases ht
    exact ⟨rfl, rfl, rfl, fun heq => absurd heq hc, fun _ => ⟨rfl, rfl⟩⟩

end Sys2Proof.Machine
end

section
/-! Proofs of the statements about the host's operations (70_reset_and_hazards.md rules R181, R184, R185). -/

namespace Sys2Proof.Machine

/-- A load with a value outside the range of rule R3 gives no machine (rule R181). -/
theorem State.load_eq_none (s : State) (image : Vector Int Config.memSize) (accInit : Int)
    (h : (∃ i, image.get i < intMin ∨ intMax < image.get i) ∨ accInit < intMin ∨ intMax < accInit) :
    s.load image accInit = none := by
  rw [State.load_eq, if_neg]
  rintro ⟨himage, hacc⟩
  rcases h with ⟨i, hi⟩ | ha
  · have := himage i
    omega
  · omega

/-- A waiting session refuses a load that gives no machine, and stays as it was. -/
theorem Session.apply_load_of_eq_none (c : Session) (image : Vector Int Config.memSize) (accInit : Int)
    (hc : c.phase = .awaitingLoad) (h : c.machine.load image accInit = none) :
    c.apply (.load image accInit) = (.refused .valueOutOfRange, c) := by
  simp [Session.apply, hc, h]

/-- Settles O4: a value out of range gives no machine to launch. -/
theorem loadRefusesValueOutOfRange : Obligations.LoadRefusesValueOutOfRange :=
  fun c image accInit hc h => c.apply_load_of_eq_none image accInit hc (c.machine.load_eq_none image accInit h)

/-- Settles O5, by the phase of the session: each phase fixes what Step and Load answer, and Observe reads the machine
alike in both. -/
theorem hostOperationsKeepTheirOrder : Obligations.HostOperationsKeepTheirOrder := by
  rintro ⟨phase, machine⟩
  cases phase with
  | awaitingLoad => exact ⟨fun _ => rfl, nofun, rfl, rfl⟩
  | launched => exact ⟨nofun, fun _ => ⟨fun _ _ => rfl, rfl⟩, rfl, rfl⟩

end Sys2Proof.Machine
end
